-- ==== Sys2Proof/Word.lean ====
section
/-! DEFINITION. The word types: the byte (R10), the 16-bit operand, the operation word (R78). -/

namespace Sys2Proof

/-- A byte, 0 .. 255 (R10). -/
abbrev Byte := BitVec 8

/-- 16 bits: the `len` operand of `TXS` (R83), and a register of 8·`LEN_BYTES` bits where `LEN_BYTES` is 2 (R22, R23). -/
abbrev Half := BitVec 16

/-- An operation word (R78). -/
abbrev Word := BitVec 32

end Sys2Proof
end

