-- ==== Sys2Proof/Syntax.lean ====
section
/-! DEFINITION. The seven operations (R80), the reasons a word is none of them (R79), and the lines of the
textual syntax (R87, R88). -/

namespace Sys2Proof

/-- The operations, one constructor per row of the opcode table (R80). -/
inductive Instr
  /-- `NOP` (R181) -/
  | nop
  /-- `RXB b` (R152): `b` is the received byte. -/
  | rxb (b : Byte)
  /-- `RXA` (R165) -/
  | rxa
  /-- `TXS ctr, len` (R132): the counter byte and the payload length. -/
  | txs (ctr : Byte) (len : Half)
  /-- `TXD b` (R134): `b` is the payload byte. -/
  | txd (b : Byte)
  /-- `TXA` (R136) -/
  | txa
  /-- `RST` (R182) -/
  | rst
  deriving DecidableEq, Repr

/-- Why a word is illegal (R79). -/
inductive DecodeError
  /-- `op` is 7 to 15 (R84). -/
  | reservedOp (op : BitVec 4)
  /-- `op` is 0 to 6 and a reserved bit of its format is 1 (R85). -/
  | reservedBits (op : BitVec 4)
  deriving DecidableEq, Repr

/-- What the decoder answers for a word (R79). -/
inductive Decoded
  | instr (i : Instr)
  | illegal (e : DecodeError)
  deriving DecidableEq, Repr

/-- One line of the textual syntax: the operations and `.word` (R87), the pseudo-operations `send` and `feed`
(R88). Operands are the numbers as written. -/
inductive AsmLine
  | nop
  | rxb (b : Nat)
  | rxa
  | txs (ctr len : Nat)
  | txd (b : Nat)
  | txa
  | rst
  | word (w : Nat)
  | send (ctr : Nat) (payload : List Nat)
  | feed (bytes : List Nat)
  deriving DecidableEq, Repr

end Sys2Proof
end

