-- ==== Sys2Proof/Decode.lean ====
section
/-! DEFINITION. Decoding an operation word (R79 to R85), total, rejecting by name; the encoder; the opcode table's
rows (R80). -/

namespace Sys2Proof

/-! ### Fields of a word (R78) -/

/-- The operation code, bits 31:28. -/
def opField (w : Word) : BitVec 4 := w.extractLsb' 28 4

/-- `b` of format B, bits 7:0 (R82). -/
def bField (w : Word) : Byte := w.extractLsb' 0 8

/-- `ctr` of format S, bits 23:16 (R83). -/
def ctrField (w : Word) : Byte := w.extractLsb' 16 8

/-- `len` of format S, bits 15:0 (R83). -/
def lenField (w : Word) : Half := w.extractLsb' 0 16

/-- The reserved bits of format Z, 27:0 (R81). -/
def reservedZ (w : Word) : BitVec 28 := w.extractLsb' 0 28

/-- The reserved bits of format B, 27:8 (R82). -/
def reservedB (w : Word) : BitVec 20 := w.extractLsb' 8 20

/-- The reserved bits of format S, 27:24 (R83). -/
def reservedS (w : Word) : BitVec 4 := w.extractLsb' 24 4

/-! ### The decoder -/

/-- Format Z (R81): no operand. -/
def decodeZ (i : Instr) (w : Word) : Decoded :=
  if reservedZ w = 0 then .instr i else .illegal (.reservedBits (opField w))

/-- Format B (R82): a byte operand. -/
def decodeB (i : Byte → Instr) (w : Word) : Decoded :=
  if reservedB w = 0 then .instr (i (bField w)) else .illegal (.reservedBits (opField w))

/-- Format S (R83): a counter and a length. -/
def decodeS (i : Byte → Half → Instr) (w : Word) : Decoded :=
  if reservedS w = 0 then .instr (i (ctrField w) (lenField w)) else .illegal (.reservedBits (opField w))

/-- Decoding, total and stateless (R79): the operation code first, then the reserved bits of its format. -/
def decode (w : Word) : Decoded :=
  match (opField w).toNat with
  | 0 => decodeZ .nop w
  | 1 => decodeB .rxb w
  | 2 => decodeZ .rxa w
  | 3 => decodeS .txs w
  | 4 => decodeB .txd w
  | 5 => decodeZ .txa w
  | 6 => decodeZ .rst w
  | _ => .illegal (.reservedOp (opField w))

/-! ### The encoder -/

/-- A format Z word (R78, R81). -/
def encodeZ (op : BitVec 4) : Word := op ++ (0 : BitVec 28)

/-- A format B word (R78, R82). -/
def encodeB (op : BitVec 4) (b : Byte) : Word := op ++ (0 : BitVec 20) ++ b

/-- A format S word (R78, R83). -/
def encodeS (op : BitVec 4) (ctr : Byte) (len : Half) : Word := op ++ (0 : BitVec 4) ++ ctr ++ len

/-- The word of an operation (R80 to R83). -/
def encode : Instr → Word
  | .nop => encodeZ 0
  | .rxb b => encodeB 1 b
  | .rxa => encodeZ 2
  | .txs ctr len => encodeS 3 ctr len
  | .txd b => encodeB 4 b
  | .txa => encodeZ 5
  | .rst => encodeZ 6

/-! ### The opcode table -/

/-- The mnemonic of an operation, as the opcode table spells it (R80). -/
def mnemonic : Instr → String
  | .nop => "NOP"
  | .rxb _ => "RXB"
  | .rxa => "RXA"
  | .txs _ _ => "TXS"
  | .txd _ => "TXD"
  | .txa => "TXA"
  | .rst => "RST"

/-- The mnemonic, match and mask of each row of the opcode table (R80). -/
def opcodeTable : List (String × Word × Word) :=
  [("NOP", 0x00000000, 0xFFFFFFFF),
   ("RXB", 0x10000000, 0xFFFFFF00),
   ("RXA", 0x20000000, 0xFFFFFFFF),
   ("TXS", 0x30000000, 0xFF000000),
   ("TXD", 0x40000000, 0xFFFFFF00),
   ("TXA", 0x50000000, 0xFFFFFFFF),
   ("RST", 0x60000000, 0xFFFFFFFF)]

/-- The instruction the decoder reads from a word given as the number `w`, of which the low `nbits` bits count.
A word is presented whole, as one 32-bit number: it lies in no memory and has no byte order (R50, R64; log 16). -/
def decodeTableWord (nbits w : Nat) : Option Instr :=
  match decode (BitVec.ofNat 32 (w % 2 ^ nbits)) with
  | .instr i => some i
  | .illegal _ => none

end Sys2Proof
end

