-- ==== Sys2Proof/Config.lean ====
section
/-! DEFINITION. The five configuration parameters (R6), the named configurations (R8) and the model's one free value. -/

namespace Sys2Proof

/-- `LEN_BYTES`: the number of bytes of the length field, 1 or 2 (R6). -/
inductive LenBytes
  | one
  | two
  deriving DecidableEq, Repr

/-- `LEN_ENDIAN`: the byte order of a two-byte length field on the wire (R6, R55). -/
inductive Endian
  | big
  | little
  deriving DecidableEq, Repr

/-- `CK`: the checksum algorithm (R6, R100). Four are named (R101 to R104). Any other triple
`(init, step, fin)` on bytes is given by its values: `stepTbl` holds `step(s, b)` at index
`256 * s + b`, `finTbl` holds `fin(s)` at index `s` (log 10). -/
inductive Checksum
  | sum8n
  | sum8
  | xor8
  | crc8
  | table (initial : Byte) (stepTbl : Vector Byte 65536) (finTbl : Vector Byte 256)
  deriving DecidableEq, Repr

/-- The configuration record (R6, R41). -/
structure Config where
  /-- `MARKER` -/
  marker     : Byte
  /-- `LEN_BYTES` -/
  lenBytes   : LenBytes
  /-- `LEN_ENDIAN` -/
  lenEndian  : Endian
  /-- `MAX_PAYLOAD` -/
  maxPayload : Nat
  /-- `CK` -/
  ck         : Checksum
  deriving DecidableEq, Repr

/-- CFG0, the default configuration (R8). PRESUMED by the spec: its marker is general knowledge (K1; log 2). -/
def Config.cfg0 : Config := ⟨0x5A, .one, .big, 255, .sum8n⟩

/-- CFG1 (R8). -/
def Config.cfg1 : Config := ⟨0x5A, .one, .big, 64, .sum8n⟩

/-- CFG2 (R8). -/
def Config.cfg2 : Config := ⟨0x5A, .two, .big, 1024, .crc8⟩

/-- CFG3 (R8). -/
def Config.cfg3 : Config := ⟨0x5A, .two, .little, 1024, .xor8⟩

/-- The byte an `RX_BUF` entry holds that nothing has written: "an unspecified byte" (R53). A free value, by
index; it has no body, so nothing can be proved of it. DESIGN CHOICE (log 6). -/
opaque Config.unwrittenByte : Nat → Byte

end Sys2Proof
end

