-- ==== Sys2Proof/Machine/Operands.lean ====
section
/-! DEFINITION. The sizes derived from a configuration (R8) and the length-field codec (R73, R74). -/

namespace Sys2Proof.Machine

/-- `LEN_BYTES` as a number (R6). -/
def lenWidth (cfg : Config) : Nat :=
  match cfg.lenBytes with
  | .one => 1
  | .two => 2

/-- `HDR`: the bytes of marker, counter and length field (R8, R70). -/
def hdr (cfg : Config) : Nat := 2 + lenWidth cfg

/-- The size of the frame that carries `n` payload bytes (R8, R70). -/
def frameSize (cfg : Config) (n : Nat) : Nat := hdr cfg + n + 1

/-- `MAX_FRAME` (R8, R77). -/
def maxFrame (cfg : Config) : Nat := frameSize cfg cfg.maxPayload

/-- `lenbytes(n)`: the wire form of the length `n`, for `n` below 2^(8·`LEN_BYTES`) (R73). -/
def lenbytes (cfg : Config) (n : Nat) : List Byte :=
  match cfg.lenBytes, cfg.lenEndian with
  | .one, _ => [BitVec.ofNat 8 n]
  | .two, .big => [BitVec.ofNat 8 (n >>> 8), BitVec.ofNat 8 n]
  | .two, .little => [BitVec.ofNat 8 n, BitVec.ofNat 8 (n >>> 8)]

/-- `lenval(l)`: the length a whole length field spells, unsigned (R74). The rule defines it on lists of
`LEN_BYTES` bytes only; on other lists it has no value. -/
def lenval (cfg : Config) (l : List Byte) : Option Nat :=
  match cfg.lenBytes, cfg.lenEndian, l with
  | .one, _, [b] => some b.toNat
  | .two, .big, [b0, b1] => some (b0.toNat * 256 + b1.toNat)
  | .two, .little, [b0, b1] => some (b0.toNat + b1.toNat * 256)
  | _, _, _ => none

/-- The length `x` with one more length byte taken into it, `k` of them having come before (R74, R152). -/
def mergeLen (cfg : Config) (x : Nat) (k : Nat) (b : Byte) : Nat :=
  match cfg.lenEndian with
  | .little => x ||| (b.toNat <<< (8 * k))
  | .big => (x <<< 8) ||| b.toNat

/-- `mergeLen` over the bytes of a list, `k` of them having come before. -/
def mergeLens (cfg : Config) : Nat → Nat → List Byte → Nat
  | x, _, [] => x
  | x, k, b :: l => mergeLens cfg (mergeLen cfg x k b) (k + 1) l

/-- `lenpartial(l)`: what the length register holds after the length bytes `l` (R74). -/
def lenpartial (cfg : Config) (l : List Byte) : Nat := mergeLens cfg 0 0 l

end Sys2Proof.Machine
end

