-- ==== Sys2Proof/Machine/Checksum.lean ====
section
/-! DEFINITION. The checksum algorithms (R100 to R104) and the law a legal one meets (R105). -/

namespace Sys2Proof

/-- `CK.init` (R100 to R104). -/
def Checksum.init : Checksum → Byte
  | .sum8n => 0
  | .sum8 => 0
  | .xor8 => 0
  | .crc8 => 0
  | .table initial _ _ => initial

/-- One of the eight shifts of `CK_CRC8`: bit 7 is shifted out after being tested (R104, R107). -/
def crcShift (r : Byte) : Byte :=
  if r.msb then (r <<< 1) ^^^ 0x07 else r <<< 1

/-- `n` shifts of `CK_CRC8` (R104). -/
def crcShifts : Nat → Byte → Byte
  | 0, r => r
  | n + 1, r => crcShifts n (crcShift r)

/-- The entry of a step table for state `s` and data byte `b` (log 10). -/
def stepEntry (tbl : Vector Byte 65536) (s b : Byte) : Byte :=
  tbl[256 * s.toNat + b.toNat]'(by have := s.isLt; have := b.isLt; omega)

/-- The entry of a table of `fin` for state `s` (log 10). -/
def finEntry (tbl : Vector Byte 256) (s : Byte) : Byte := tbl[s.toNat]'s.isLt

/-- `CK.step(s, b)` (R100 to R104). -/
def Checksum.step : Checksum → Byte → Byte → Byte
  | .sum8n, s, b => s + b
  | .sum8, s, b => s + b
  | .xor8, s, b => s ^^^ b
  | .crc8, s, b => crcShifts 8 (s ^^^ b)
  | .table _ stepTbl _, s, b => stepEntry stepTbl s b

/-- `CK.fin(s)` (R100 to R104). -/
def Checksum.fin : Checksum → Byte → Byte
  | .sum8n, s => -s
  | .sum8, s => s
  | .xor8, s => s
  | .crc8, s => s
  | .table _ _ finTbl, s => finEntry finTbl s

/-- `fold(l)`: the checksum state after the bytes of `l` (R100). -/
def Checksum.fold (ck : Checksum) (l : List Byte) : Byte := l.foldl ck.step ck.init

/-- `CK.of(l)` (R100). -/
def Checksum.of (ck : Checksum) (l : List Byte) : Byte := ck.fin (ck.fold l)

/-- The checksum algorithm with a given triple `(init, step, fin)` (R100). -/
def Checksum.ofTriple (init : Byte) (step : Byte → Byte → Byte) (fin : Byte → Byte) : Checksum :=
  .table init
    (.ofFn fun k => step (BitVec.ofNat 8 (k.val / 256)) (BitVec.ofNat 8 (k.val % 256)))
    (.ofFn fun k => fin (BitVec.ofNat 8 k.val))

/-- The law R105, single-byte sensitivity: a list changed in one byte has another checksum. -/
def Checksum.Sensitive (ck : Checksum) : Prop :=
  ∀ (l : List Byte) (i : Nat) (v : Byte), (h : i < l.length) → v ≠ l[i] → ck.of (l.set i v) ≠ ck.of l

end Sys2Proof
end

