-- ==== Sys2Proof/Machine/LenReg.lean ====
section
/-! DEFINITION. Values of 8·`LEN_BYTES` bits: the registers `RX_LEN`, `RX_IDX` and `TX_REM` (R22, R23) and the port
field `evt_len` (R194). -/

namespace Sys2Proof.Machine

/-- A value of 8·`LEN_BYTES` bits: 8 bits where `LEN_BYTES` is 1, 16 bits where it is 2 (R22, R23; log 8). -/
inductive LenReg
  | one (v : Byte)
  | two (v : Half)
  deriving DecidableEq, Repr

/-- The width in bits. -/
def LenReg.width : LenReg → Nat
  | .one _ => 8
  | .two _ => 16

/-- The number held. -/
def LenReg.toNat : LenReg → Nat
  | .one v => v.toNat
  | .two v => v.toNat

/-- One more, in the register's own width. It wraps in no state that a run reaches (R29). -/
def LenReg.succ : LenReg → LenReg
  | .one v => .one (v + 1)
  | .two v => .two (v + 1)

/-- One less, in the register's own width. It underflows in no state that a run reaches (R34). -/
def LenReg.pred : LenReg → LenReg
  | .one v => .one (v - 1)
  | .two v => .two (v - 1)

/-- What a register of this configuration's width holds after `n` is written to it. -/
def lenReg (cfg : Config) (n : Nat) : LenReg :=
  match cfg.lenBytes with
  | .one => .one (BitVec.ofNat 8 n)
  | .two => .two (BitVec.ofNat 16 n)

end Sys2Proof.Machine
end

