-- ==== Sys2Proof/Machine/Halves.lean ====
section
/-! DEFINITION. The nine registers: the receive half (R22), the transmit half (R23), and their canonical values (R31,
R36). -/

namespace Sys2Proof.Machine

/-- `RX_PHASE`: which field of a frame the next received byte is taken as (R25). Codes 5, 6 and 7 are not
representable (log 9). -/
inductive RxPhase
  | hunt
  | ctr
  | len
  | data
  | csum
  deriving DecidableEq, Repr

/-- `TX_PHASE` (R26). -/
inductive TxPhase
  | idle
  | data
  deriving DecidableEq, Repr

/-- The contents of `RX_BUF` (R32, R51): the entries that hold a byte, by rising index. An index that is not
listed holds no value the model knows (log 5, log 6). -/
abbrev Memory := List Host.Cell

/-- The receive half (R22). -/
structure RxHalf where
  /-- `RX_PHASE`, 3 bits (R25) -/
  phase : RxPhase
  /-- `RX_CTR`, 8 bits (R27) -/
  ctr   : Byte
  /-- `RX_LEN`, 8·`LEN_BYTES` bits (R22, R28) -/
  len   : LenReg
  /-- `RX_IDX`, 8·`LEN_BYTES` bits (R22, R29) -/
  idx   : LenReg
  /-- `RX_SUM`, 8 bits (R30) -/
  sum   : Byte
  /-- `RX_BUF`, the bytes of `RX_PAY` (R32) -/
  buf   : Memory
  deriving DecidableEq, Repr

/-- The transmit half (R23). -/
structure TxHalf where
  /-- `TX_PHASE`, 1 bit (R26) -/
  phase : TxPhase
  /-- `TX_REM`, 8·`LEN_BYTES` bits (R23, R34) -/
  rem   : LenReg
  /-- `TX_SUM`, 8 bits (R35) -/
  sum   : Byte
  deriving DecidableEq, Repr

/-- The canonical hunt state (R31): the one value of the receive half in phase `HUNT`. -/
def canonicalHunt (cfg : Config) : RxHalf := ⟨.hunt, 0, lenReg cfg 0, lenReg cfg 0, cfg.ck.init, []⟩

/-- The canonical idle state (R36): the one value of the transmit half in phase `IDLE`. -/
def canonicalIdle (cfg : Config) : TxHalf := ⟨.idle, lenReg cfg 0, cfg.ck.init⟩

end Sys2Proof.Machine
end

