-- ==== Sys2Proof/Machine/State.lean ====
section
/-! DEFINITION. The result record (R9, R190 to R192), the state of the machine (R21), the ways a step can stop, and
the state after reset (R45). -/

namespace Sys2Proof.Machine

/-- The response codes (R192). -/
inductive Resp
  | ok
  | errIllegal
  | errBusy
  | errIdle
  | errLen
  deriving DecidableEq, Repr

/-- The sub-causes of `CORRUPT` (R191). -/
inductive Cause
  | lenRange
  | checksum
  deriving DecidableEq, Repr

/-- The receive event of an operation (R9, R190, R191). -/
inductive Event
  | none
  | frame (ctr : Byte) (len : Nat) (payload : List Byte)
  | corrupt (cause : Cause)
  deriving DecidableEq, Repr

/-- The result record of an operation (R9): its response, its receive event, and the bytes it appends to the
transmit stream. -/
structure Result where
  resp : Resp
  evt  : Event
  tx   : List Byte
  deriving DecidableEq, Repr

/-- The state a step reads and gives: the two halves of PFV (R21); the configuration, which nothing writes (R41;
log 1); the operation words the environment has still to present (R5; log 3); the result record of the step just
taken (R9; log 4). -/
structure State where
  cfg    : Config
  rx     : RxHalf
  tx     : TxHalf
  input  : List Word
  result : Option Result
  deriving DecidableEq, Repr

/-- The faults that stop the machine: none. The step function is total, there is no stuck state and no access
fault (R9, R53, R233), so no one raises a fault, which is exact (log 15). -/
inductive Fault
  deriving DecidableEq, Repr

/-- The instructions without a meaning in the model. -/
inductive Refusal
  /-- Raised by an arm of `exec` for an instruction that is not modelled; no arm raises it. It would be safe: the
  machine stops where the hardware goes on. -/
  | notModelled (mnemonic : String)
  deriving DecidableEq, Repr

/-- The state right after the reset line is released, for a given configuration (R45, R220). No operation has been
presented, so there is no word pending and no result (DESIGN CHOICE for the model's own two fields: log 3, log 4). -/
def State.resetOf (cfg : Config) : State := ⟨cfg, canonicalHunt cfg, canonicalIdle cfg, [], none⟩

/-- The machine right after reset, in the default configuration CFG0 (R8, R45; log 2). -/
def State.reset : State := State.resetOf Config.cfg0

end Sys2Proof.Machine
end

