-- ==== Sys2Proof/Machine/Ops.lean ====
section
/-! DEFINITION. The operations the meanings share: the payload buffer (R53), writing a half, the result of an
operation, refusing (R193), raising Corrupt (R196), presenting a word. -/

namespace Sys2Proof.Machine

/-! ### The payload buffer (R32, R51, R53) -/

/-- The byte listed at index `a`, if one is. -/
def Memory.get? : Memory → Nat → Option Byte
  | [], _ => none
  | (k, v) :: m, a => if a = k then some v else Memory.get? m a

/-- The memory with the byte `b` at index `a`. -/
def Memory.put : Memory → Nat → Byte → Memory
  | [], a, b => [(a, b)]
  | (k, v) :: m, a, b =>
    if a < k then (a, b) :: (k, v) :: m
    else if a = k then (a, b) :: m
    else (k, v) :: Memory.put m a b

/-- The canonical form: indices strictly rising. An unlisted index reads as no value, so no entry can equal it. -/
abbrev Memory.wf (m : Memory) : Prop := m.Pairwise fun x y => x.1 < y.1

/-- The cells of a list of bytes stored from index `k` up. -/
def Memory.ofBytesFrom : Nat → List Byte → Memory
  | _, [] => []
  | k, b :: l => (k, b) :: Memory.ofBytesFrom (k + 1) l

/-- The memory that holds a list of bytes from index 0 up, and nothing else. -/
def Memory.ofBytes (l : List Byte) : Memory := Memory.ofBytesFrom 0 l

/-- `MemRead(a, 1)` (R53): the byte of `RX_BUF` at index `a`. An entry that nothing has written holds an
unspecified byte, a free value (log 6). An index at or above `MAX_PAYLOAD` has no entry; no rule reads one (log 7). -/
def memRead (cfg : Config) (m : Memory) (a : Nat) : Byte :=
  if a < cfg.maxPayload then (Memory.get? m a).getD (Config.unwrittenByte a) else Config.unwrittenByte a

/-- `MemWrite(a, 1, b)` (R53). An index at or above `MAX_PAYLOAD` has no entry to store to; no rule writes one
(log 7). -/
def memWrite (cfg : Config) (m : Memory) (a : Nat) (b : Byte) : Memory :=
  if a < cfg.maxPayload then Memory.put m a b else m

/-- `[MemRead(0, 1), ..., MemRead(n - 1, 1)]` (R51, R152). -/
def memReadUpTo (cfg : Config) (m : Memory) (n : Nat) : List Byte := (List.range n).map (memRead cfg m)

/-- `RX_PAY` as the registers spell it (R32): the buffer up to the fill level in phases `DATA` and `CSUM`, empty in
the others. -/
def rxPay (cfg : Config) (rx : RxHalf) : List Byte :=
  match rx.phase with
  | .data => memReadUpTo cfg rx.buf rx.idx.toNat
  | .csum => memReadUpTo cfg rx.buf rx.idx.toNat
  | .hunt => []
  | .ctr => []
  | .len => []

/-! ### Writing the state -/

/-- The state with another receive half. -/
def State.setRx (s : State) (rx : RxHalf) : State := { s with rx := rx }

/-- The state with another transmit half. -/
def State.setTx (s : State) (tx : TxHalf) : State := { s with tx := tx }

/-- The state with another list of words to present. -/
def State.setInput (s : State) (ws : List Word) : State := { s with input := ws }

/-- The state with another result. -/
def State.setResult (s : State) (r : Option Result) : State := { s with result := r }

/-! ### The result of an operation (R9) -/

/-- `resp` = `OK`, `evt` = `NONE`, `tx` = `bytes`: the result where no event and no refusal is written (R10). -/
def State.answerOk (s : State) (bytes : List Byte) : State := s.setResult (some ⟨.ok, .none, bytes⟩)

/-- `refuse ERR_x` (R193): the response, and no register written. -/
def State.refuse (s : State) (r : Resp) : State := s.setResult (some ⟨r, .none, []⟩)

/-- `raise Corrupt(cause)` (R196), the whole "trap entry" of the hardware: the event, and the canonical hunt state.
Nothing is saved and control goes nowhere (R199); there is no return from it, for nothing needs restoring (R200). -/
def State.raiseCorrupt (s : State) (cause : Cause) : State :=
  (s.setRx (canonicalHunt s.cfg)).setResult (some ⟨.ok, .corrupt cause, []⟩)

/-- Delivery of a frame (R157, R190): the event carries the whole frame, and the receive half becomes canonical. -/
def State.deliver (s : State) (ctr : Byte) (len : Nat) (payload : List Byte) : State :=
  (s.setRx (canonicalHunt s.cfg)).setResult (some ⟨.ok, .frame ctr len payload, []⟩)

/-- The receive half back in the canonical hunt state (R31). -/
def State.huntAgain (s : State) : State := s.setRx (canonicalHunt s.cfg)

/-- The transmit half back in the canonical idle state (R36). -/
def State.idleAgain (s : State) : State := s.setTx (canonicalIdle s.cfg)

/-- What an illegal word does, in every state (R183). -/
def State.illegalWord (s : State) : State := s.refuse .errIllegal

/-! ### Presenting a word (R5, R58) -/

/-- The word the environment presents next, and the state without it (log 3). -/
def takeWord (s : State) : Option (Word × State) :=
  match s.input with
  | [] => none
  | w :: ws => some (w, s.setInput ws)

/-- A step in which no operation is presented: PFV is idle and keeps all its state (R209); no operation, so no
result (log 3, log 4). -/
def State.noOperation (s : State) : State := s.setResult none

/-- The state in which the environment presents `w` next, before the words it had to present. -/
def State.present (s : State) (w : Word) : State := s.setInput (w :: s.input)

end Sys2Proof.Machine
end

