-- ==== Sys2Proof/Machine/Rx.lean ====
section
/-! DEFINITION. The meanings of the receive operations: `RXB` (R151 to R159), phase by phase, and `RXA` (R165). -/

namespace Sys2Proof.Machine

/-- `RXB` in phase `HUNT` (R153): the marker opens a candidate; any other byte is stray and discarded. -/
def rxHunt (b : Byte) (s : State) : State :=
  if b = s.cfg.marker then (s.setRx { s.rx with phase := .ctr }).answerOk [] else s.answerOk []

/-- `RXB` in phase `CTR` (R154): the counter, whatever its value; the checksum fold starts. -/
def rxCtr (b : Byte) (s : State) : State :=
  (s.setRx { s.rx with phase := .len, ctr := b, sum := s.cfg.ck.step s.cfg.ck.init b }).answerOk []

/-- `RXB` in phase `LEN` (R155): length assembly, and validation as soon as the length is complete. -/
def rxLen (b : Byte) (s : State) : State :=
  let len := mergeLen s.cfg s.rx.len.toNat s.rx.idx.toNat b
  let sum := s.cfg.ck.step s.rx.sum b
  if s.rx.idx.toNat + 1 < lenWidth s.cfg then
    (s.setRx { s.rx with len := lenReg s.cfg len, sum := sum, idx := s.rx.idx.succ }).answerOk []
  else if len > s.cfg.maxPayload then s.raiseCorrupt .lenRange
  else if len = 0 then
    (s.setRx { s.rx with len := lenReg s.cfg 0, sum := sum, idx := lenReg s.cfg 0, phase := .csum }).answerOk []
  else
    (s.setRx { s.rx with len := lenReg s.cfg len, sum := sum, idx := lenReg s.cfg 0, phase := .data }).answerOk []

/-- The index of `RX_BUF` that `RXB` stores to in phase `DATA`: `RX_IDX` (R51, R156). -/
def rxStoreIndex (s : State) : Nat := s.rx.idx.toNat

/-- `RXB` in phase `DATA` (R156): the byte is stored, folded and counted. The comparison is with the index before
the operation (R152). -/
def rxData (b : Byte) (s : State) : State :=
  let phase := if s.rx.idx.toNat + 1 = s.rx.len.toNat then .csum else .data
  (s.setRx { s.rx with
    phase := phase, sum := s.cfg.ck.step s.rx.sum b, idx := s.rx.idx.succ,
    buf := memWrite s.cfg s.rx.buf (rxStoreIndex s) b }).answerOk []

/-- `RXB` in phase `CSUM` (R157): the frame is delivered, or `CORRUPT(CHECKSUM)` raised. -/
def rxCsum (b : Byte) (s : State) : State :=
  if s.cfg.ck.fin s.rx.sum = b then
    s.deliver s.rx.ctr s.rx.len.toNat (memReadUpTo s.cfg s.rx.buf s.rx.len.toNat)
  else s.raiseCorrupt .checksum

/-- One received byte (R152). -/
def rxByte (b : Byte) (s : State) : State :=
  match s.rx.phase with
  | .hunt => rxHunt b s
  | .ctr => rxCtr b s
  | .len => rxLen b s
  | .data => rxData b s
  | .csum => rxCsum b s

/-- `RXB b` (R152). It is never refused (R158). -/
def execRxb (b : Byte) (s : State) : Host.Outcome State Fault Refusal := .next (rxByte b s)

/-- `RXA` (R165): the candidate is discarded, without an event. -/
def execRxa (s : State) : Host.Outcome State Fault Refusal := .next (s.huntAgain.answerOk [])

end Sys2Proof.Machine
end

