-- ==== Sys2Proof/Machine/System.lean ====
section
/-! DEFINITION. The meanings of the system operations `NOP` (R181) and `RST` (R182). -/

namespace Sys2Proof.Machine

/-- `NOP` (R181): no register is written. -/
def execNop (s : State) : Host.Outcome State Fault Refusal := .next (s.answerOk [])

/-- `RST` (R182): both halves canonical, no event, nothing emitted, the configuration unchanged. -/
def execRst (s : State) : Host.Outcome State Fault Refusal := .next (s.huntAgain.idleAgain.answerOk [])

end Sys2Proof.Machine
end

