-- ==== Sys2Proof/Machine/Tx.lean ====
section
/-! DEFINITION. The meanings of the transmit operations `TXS` (R132), `TXD` (R134) and `TXA` (R136). -/

namespace Sys2Proof.Machine

/-- The header `TXS` emits: marker, counter, length (R132). -/
def txHeader (cfg : Config) (ctr : Byte) (len : Half) : List Byte :=
  [cfg.marker, ctr] ++ lenbytes cfg len.toNat

/-- The checksum state after counter and length (R132). The marker is not folded in (R76). -/
def txHeaderSum (cfg : Config) (ctr : Byte) (len : Half) : Byte :=
  cfg.ck.fold ([ctr] ++ lenbytes cfg len.toNat)

/-- An accepted `TXS` (R132): with no payload the frame is complete at once, else it stays open. -/
def txStart (ctr : Byte) (len : Half) (s : State) : State :=
  if len = 0 then
    s.idleAgain.answerOk (txHeader s.cfg ctr len ++ [s.cfg.ck.fin (txHeaderSum s.cfg ctr len)])
  else
    (s.setTx ⟨.data, lenReg s.cfg len.toNat, txHeaderSum s.cfg ctr len⟩).answerOk (txHeader s.cfg ctr len)

/-- An accepted `TXD` (R134): the byte goes out, and the checksum after the last one. -/
def txByte (b : Byte) (s : State) : State :=
  let sum := s.cfg.ck.step s.tx.sum b
  if s.tx.rem.pred.toNat = 0 then s.idleAgain.answerOk [b, s.cfg.ck.fin sum]
  else (s.setTx ⟨.data, s.tx.rem.pred, sum⟩).answerOk [b]

/-- `TXS ctr, len` (R132): `ERR_BUSY` is tested before `ERR_LEN` (R198). -/
def execTxs (ctr : Byte) (len : Half) (s : State) : Host.Outcome State Fault Refusal :=
  if s.tx.phase = .data then .next (s.refuse .errBusy)
  else if len.toNat > s.cfg.maxPayload then .next (s.refuse .errLen)
  else .next (txStart ctr len s)

/-- `TXD b` (R134). -/
def execTxd (b : Byte) (s : State) : Host.Outcome State Fault Refusal :=
  if s.tx.phase = .idle then .next (s.refuse .errIdle) else .next (txByte b s)

/-- `TXA` (R136): the frame being sent is abandoned; bytes already emitted are not recalled. -/
def execTxa (s : State) : Host.Outcome State Fault Refusal := .next (s.idleAgain.answerOk [])

end Sys2Proof.Machine
end

