-- ==== Sys2Proof/Machine/Dispatch.lean ====
section
/-! DEFINITION. One arm per operation (R80). -/

namespace Sys2Proof.Machine

def exec (i : Instr) (s : State) : Host.Outcome State Fault Refusal :=
  match i with
  | .nop => Sys2Proof.Machine.execNop s
  | .rxb b => Sys2Proof.Machine.execRxb b s
  | .rxa => Sys2Proof.Machine.execRxa s
  | .txs ctr len => Sys2Proof.Machine.execTxs ctr len s
  | .txd b => Sys2Proof.Machine.execTxd b s
  | .txa => Sys2Proof.Machine.execTxa s
  | .rst => Sys2Proof.Machine.execRst s

end Sys2Proof.Machine
end

