-- ==== Sys2Proof/Machine/Step.lean ====
section
/-! DEFINITION. One step: the operation word the environment presents next is decoded and executed (R9, R58). -/

namespace Sys2Proof.Machine

/-- One operation word in one state (R9, R79): an illegal word answers `ERR_ILLEGAL` (R183). -/
def runWord (w : Word) (s : State) : Host.Outcome State Fault Refusal :=
  match decode w with
  | .instr i => exec i s
  | .illegal _ => .next s.illegalWord

/-- One step. With no word to present, PFV is idle (R209; log 3). -/
def step (s : State) : Host.Outcome State Fault Refusal :=
  match takeWord s with
  | none => .next s.noOperation
  | some (w, t) => runWord w t

/-- The state in which the environment presents next the word of which the low `nbits` bits are `w`'s. PFV fetches
nothing (R24): its words come from outside (log 3, log 16). -/
def State.withFetchWord (s : State) (nbits w : Nat) : State := s.present (BitVec.ofNat 32 (w % 2 ^ nbits))

end Sys2Proof.Machine
end

