-- ==== Sys2Proof/WellFormed.lean ====
section
/-! DEFINITION. What is well formed: a configuration's sizes (R6, R7(a)), a line of the textual syntax (R87,
R88), an instruction. -/

namespace Sys2Proof

/-- `MAX_PAYLOAD` is representable in the length field (R6, R7(a)). The other parameters' legal values are their
types, but for the checksum's law R105, which is `Config.Legal` in Safety.lean. -/
def Config.wf (c : Config) : Bool :=
  match c.lenBytes with
  | .one => c.maxPayload ≤ 255
  | .two => c.maxPayload ≤ 65535

/-- Every operand value of every operation is legal (R82, R83): the operand types admit no other, so every
instruction is well formed. Whether a `TXS` length is acceptable is decided when it executes (R83). -/
def Instr.wf : Instr → Bool
  | .nop => true
  | .rxb _ => true
  | .rxa => true
  | .txs _ _ => true
  | .txd _ => true
  | .txa => true
  | .rst => true

/-- The operands of a line fit the fields of its word (R82, R83, R87; log 14), and the length of a `send`'s list fits the
`len` field of its `TXS`: the spec does not say what a longer list gives. DESIGN CHOICE (log 19). -/
def AsmLine.wf : AsmLine → Bool
  | .nop => true
  | .rxb b => b < 256
  | .rxa => true
  | .txs ctr len => ctr < 256 && len < 65536
  | .txd b => b < 256
  | .txa => true
  | .rst => true
  | .word w => w < 4294967296
  | .send ctr payload => ctr < 256 && payload.length < 65536 && payload.all (· < 256)
  | .feed bytes => bytes.all (· < 256)

end Sys2Proof
end

