-- ==== Sys2Proof/Machine/Asm.lean ====
section
/-! DEFINITION. The textual syntax of operations (R87) and the pseudo-operations (R88): from a line to its words. -/

namespace Sys2Proof.Machine

/-! ### From a line to its words -/

/-- The word of `rxb b` (R87). -/
def asmRxb (b : Nat) : Word := BitVec.ofNat 32 (0x10000000 + b)

/-- The word of `txs ctr, len` (R87). -/
def asmTxs (ctr len : Nat) : Word := BitVec.ofNat 32 (0x30000000 + ctr * 65536 + len)

/-- The word of `txd b` (R87). -/
def asmTxd (b : Nat) : Word := BitVec.ofNat 32 (0x40000000 + b)

/-- The words a line stands for (R87, R88). -/
def asmWords : AsmLine → List Word
  | .nop => [0x00000000]
  | .rxb b => [asmRxb b]
  | .rxa => [0x20000000]
  | .txs ctr len => [asmTxs ctr len]
  | .txd b => [asmTxd b]
  | .txa => [0x50000000]
  | .rst => [0x60000000]
  | .word w => [BitVec.ofNat 32 w]
  | .send ctr payload => asmTxs ctr payload.length :: payload.map asmTxd
  | .feed bytes => bytes.map asmRxb

/-- The words of a line whose operands fit; no other line has any. -/
def assemble (l : AsmLine) : Option (List Word) := if l.wf then some (asmWords l) else none

/-! ### From text to lines (log 14) -/

/-- A token of the textual syntax (R87). -/
inductive Tok
  | ident (name : List Char)
  | num (n : Nat)
  | comma
  | openBracket
  | closeBracket
  deriving DecidableEq, Repr

/-- The value of a digit, hexadecimal digits in either case. -/
def digitValue (c : Char) : Option Nat :=
  if '0' ≤ c ∧ c ≤ '9' then some (c.toNat - 48)
  else if 'a' ≤ c ∧ c ≤ 'f' then some (c.toNat - 87)
  else if 'A' ≤ c ∧ c ≤ 'F' then some (c.toNat - 55)
  else none

/-- The number a list of digits spells in a base, after the digits that made `n`. -/
def digits (base : Nat) : Nat → List Char → Option Nat
  | n, [] => some n
  | n, c :: cs =>
    match digitValue c with
    | some d => if d < base then digits base (n * base + d) cs else none
    | none => none

/-- A number in C notation (R87): `0x` for hexadecimal, a leading `0` for octal, else decimal. -/
def number : List Char → Option Nat
  | [] => none
  | '0' :: 'x' :: c :: cs => digits 16 0 (c :: cs)
  | '0' :: 'X' :: c :: cs => digits 16 0 (c :: cs)
  | '0' :: cs => digits 8 0 cs
  | c :: cs => digits 10 0 (c :: cs)

/-- A character of a name or a number. -/
def isWordChar (c : Char) : Bool :=
  ('0' ≤ c && c ≤ '9') || ('a' ≤ c && c ≤ 'z') || ('A' ≤ c && c ≤ 'Z') || c == '.'

/-- The token, if any, of the characters collected so far, last first. -/
def endWord (word : List Char) : Option (List Tok) :=
  match word.reverse with
  | [] => some []
  | c :: cs => if '0' ≤ c ∧ c ≤ '9' then (number (c :: cs)).map fun n => [.num n] else some [.ident (c :: cs)]

/-- The tokens of a line; `word` is the part of a word already read, last character first. A `;` begins a comment
(R87). -/
def tokens : List Char → List Char → Option (List Tok)
  | [], word => endWord word
  | c :: cs, word =>
    if c == ';' then endWord word
    else if isWordChar c then tokens cs (c :: word)
    else
      match endWord word, tokens cs [] with
      | some a, some b =>
        if c == ' ' || c == '\t' || c == '\r' then some (a ++ b)
        else if c == ',' then some (a ++ .comma :: b)
        else if c == '[' then some (a ++ .openBracket :: b)
        else if c == ']' then some (a ++ .closeBracket :: b)
        else none
      | _, _ => none

/-- The numbers of a list, after one of them, up to its closing bracket. -/
def listRest : List Tok → Option (List Nat)
  | [.closeBracket] => some []
  | .comma :: .num n :: ts => (listRest ts).map (n :: ·)
  | _ => none

/-- A bracketed list of numbers (R88). -/
def numberList : List Tok → Option (List Nat)
  | [.openBracket, .closeBracket] => some []
  | .openBracket :: .num n :: ts => (listRest ts).map (n :: ·)
  | _ => none

/-- The line that a mnemonic and its operands spell (R87, R88). -/
def lineOf (name : List Char) (ts : List Tok) : Option AsmLine :=
  match String.ofList name, ts with
  | "nop", [] => some .nop
  | "rxb", [.num b] => some (.rxb b)
  | "rxa", [] => some .rxa
  | "txs", [.num ctr, .comma, .num len] => some (.txs ctr len)
  | "txd", [.num b] => some (.txd b)
  | "txa", [] => some .txa
  | "rst", [] => some .rst
  | ".word", [.num w] => some (.word w)
  | "send", .num ctr :: .comma :: ts => (numberList ts).map (.send ctr)
  | "feed", ts => (numberList ts).map .feed
  | _, _ => none

/-- The words of one line of text (R87): a blank line has none. -/
def assembleLine (text : List Char) : Option (List Word) :=
  match tokens text [] with
  | some [] => some []
  | some (.ident name :: ts) => (lineOf name ts).bind assemble
  | _ => none

/-- The words of a text, one operation a line (R87). -/
def assembleLines : List (List Char) → Option (List Word)
  | [] => some []
  | l :: ls =>
    match assembleLine l, assembleLines ls with
    | some a, some b => some (a ++ b)
    | _, _ => none

end Sys2Proof.Machine
end

