-- ==== Sys2Proof/Machine/Flags.lean ====
section
/-! DEFINITION. The `STATUS` output (R39) and the encodings of a result on an event port (R192, R194). PFV has no
flags (R40). -/

namespace Sys2Proof.Machine

/-- The code of a receive phase (R25). -/
def rxPhaseCode : RxPhase → BitVec 3
  | .hunt => 0
  | .ctr => 1
  | .len => 2
  | .data => 3
  | .csum => 4

/-- The code of a transmit phase (R26). -/
def txPhaseCode : TxPhase → BitVec 1
  | .idle => 0
  | .data => 1

/-- `STATUS` (R39): bits 7:4 zero, bit 3 `TXBUSY`, bits 2:0 `RXPH`. -/
def status (s : State) : BitVec 8 := (0 : BitVec 4) ++ txPhaseCode s.tx.phase ++ rxPhaseCode s.rx.phase

/-- The response codes (R192). -/
def respCode : Resp → BitVec 3
  | .ok => 0
  | .errIllegal => 1
  | .errBusy => 2
  | .errIdle => 3
  | .errLen => 4

/-- The causes of a `CORRUPT` (R191). -/
def causeCode : Cause → BitVec 2
  | .lenRange => 1
  | .checksum => 2

/-- The fields of a physical event port (R194). -/
structure EventPort where
  resp       : BitVec 3
  evtKind    : BitVec 2
  evtCause   : BitVec 2
  evtCtr     : Byte
  evtLen     : LenReg
  evtPayload : List Byte
  deriving DecidableEq, Repr

/-- A result as the event port of an instance shows it (R194). -/
def eventPort (cfg : Config) (r : Result) : EventPort :=
  match r.evt with
  | .none => ⟨respCode r.resp, 0, 0, 0, lenReg cfg 0, []⟩
  | .frame ctr len payload => ⟨respCode r.resp, 1, 0, ctr, lenReg cfg len, payload⟩
  | .corrupt cause => ⟨respCode r.resp, 2, causeCode cause, 0, lenReg cfg 0, []⟩

end Sys2Proof.Machine
end

