-- ==== Sys2Proof/Machine/Frame.lean ====
section
/-! DEFINITION. The two pure functions of the source on whole byte lists: `encode` (R108, R109) and `decode` (R110,
R111). They have no state. -/

namespace Sys2Proof.Machine

/-- The bytes the checksum covers: counter, length field, payload (R76). -/
def coveredBytes (cfg : Config) (ctr : Byte) (payload : List Byte) : List Byte :=
  [ctr] ++ lenbytes cfg payload.length ++ payload

/-- The bytes of a frame (R70, R108). -/
def frameBytes (cfg : Config) (payload : List Byte) (ctr : Byte) : List Byte :=
  [cfg.marker] ++ coveredBytes cfg ctr payload ++ [cfg.ck.of (coveredBytes cfg ctr payload)]

/-- `encode(payload, ctr)` (R108). It has no value for a payload longer than `MAX_PAYLOAD` (R109; log 13). -/
def frameEncode (cfg : Config) (payload : List Byte) (ctr : Byte) : Option (List Byte) :=
  if payload.length ≤ cfg.maxPayload then some (frameBytes cfg payload ctr) else none

/-- The outcome of `decode` (R110). -/
inductive DecodeFrame
  | frame (ctr : Byte) (payload : List Byte)
  | corrupt
  deriving DecidableEq, Repr

/-- What follows the length field: exactly `n` payload bytes, within `MAX_PAYLOAD`, and the checksum of the covered
bytes (R110, R111). -/
def decodeBody (cfg : Config) (ctr : Byte) (lb : List Byte) (n : Nat) (body : List Byte) : DecodeFrame :=
  if n ≤ cfg.maxPayload ∧ body = body.take n ++ [cfg.ck.of ([ctr] ++ lb ++ body.take n)] ∧ (body.take n).length = n then
    .frame ctr (body.take n)
  else .corrupt

/-- What follows the marker: counter, length field, and the rest (R70). -/
def decodeFromCounter (cfg : Config) : List Byte → DecodeFrame
  | [] => .corrupt
  | ctr :: l =>
    match lenval cfg (l.take (lenWidth cfg)) with
    | none => .corrupt
    | some n => decodeBody cfg ctr (l.take (lenWidth cfg)) n (l.drop (lenWidth cfg))

/-- `decode(l)` (R110): stray bytes up to the first marker are skipped, and what follows must be exactly one frame. -/
def frameDecode (cfg : Config) : List Byte → DecodeFrame
  | [] => .corrupt
  | b :: l => if b = cfg.marker then decodeFromCounter cfg l else frameDecode cfg l

end Sys2Proof.Machine
end

