-- ==== Sys2Proof/Machine/Trace.lean ====
section
/-! DEFINITION. Sequences of operations (R58): what they answer, the transmit stream (R54, R61), the event sequence,
and the sequences `feed` and `send` (R88). -/

namespace Sys2Proof.Machine

/-- What a sequence of operations answers: the result records in order (all that is observed, R9), and the state
after it. -/
structure Run where
  results : List Result
  final   : State
  deriving DecidableEq, Repr

/-- `n` steps, collecting the results. -/
def collect : Nat → State → Option Run
  | 0, s => some ⟨[], s⟩
  | n + 1, s =>
    match step s with
    | .next t => (collect n t).map fun r => ⟨t.result.toList ++ r.results, r.final⟩
    | .fault _ => none
    | .refused _ => none

/-- The environment presents the words `ws`, in order, and nothing else (R58). -/
def run (ws : List Word) (s : State) : Option Run := collect ws.length (s.setInput ws)

/-- The receive events of a run, one an operation (R61). -/
def Run.events (r : Run) : List Event := r.results.map Result.evt

/-- The receive events of a run other than `NONE` (R61). -/
def Run.deliveries (r : Run) : List Event := r.events.filter (· ≠ .none)

/-- The responses of a run (R192). -/
def Run.responses (r : Run) : List Resp := r.results.map Result.resp

/-- The bytes a run appends to the transmit stream (R54, R61). -/
def Run.txStream (r : Run) : List Byte := r.results.flatMap Result.tx

/-- `feed(l)` (R60, R88). -/
def feedWords (l : List Byte) : List Word := l.map fun b => encode (.rxb b)

/-- `send ctr, p` (R88). For a list of 65536 bytes or more, whose length fits no `len` field, the spec says nothing: here
the length is cut to 16 bits and every byte still has its `TXD`. DESIGN CHOICE (log 19). -/
def sendWords (ctr : Byte) (p : List Byte) : List Word :=
  encode (.txs ctr (BitVec.ofNat 16 p.length)) :: p.map fun b => encode (.txd b)

/-- Which half a word's operation belongs to (R59). -/
inductive Side
  | receive
  | transmit
  | both
  | neither
  deriving DecidableEq, Repr

/-- The half a word's operation belongs to; `NOP` and illegal words belong to neither (R59). -/
def side (w : Word) : Side :=
  match decode w with
  | .instr .nop => .neither
  | .instr (.rxb _) => .receive
  | .instr .rxa => .receive
  | .instr (.txs _ _) => .transmit
  | .instr (.txd _) => .transmit
  | .instr .txa => .transmit
  | .instr .rst => .both
  | .illegal _ => .neither

/-- The words of a sequence that touch the receive half. -/
def receiveWords (ws : List Word) : List Word := ws.filter fun w => side w = .receive || side w = .both

/-- The words of a sequence that touch the transmit half. -/
def transmitWords (ws : List Word) : List Word := ws.filter fun w => side w = .transmit || side w = .both

end Sys2Proof.Machine
end

