-- ==== Sys2Proof/Safety.lean ====
section
/-! DEFINITION. What the spec promises of: legal configurations (R7) and the states a run from reset can reach (R37,
R38). A claim about other states is no claim of the spec (U5). -/

namespace Sys2Proof

/-- A legal configuration (R7): the length fits (a), and the checksum meets the law R105 (c). Constraint (b) is a
promise about the catalog only, not a condition on PFV. -/
structure Config.Legal (cfg : Config) : Prop where
  fits      : cfg.wf = true
  sensitive : cfg.ck.Sensitive

end Sys2Proof

namespace Sys2Proof.Machine

/-- The receive half is on the line of its phase in the table of R37. -/
def RxHalf.Inv (cfg : Config) (rx : RxHalf) : Prop :=
  match rx.phase with
  | .hunt => rx = canonicalHunt cfg
  | .ctr => rx = { canonicalHunt cfg with phase := .ctr }
  | .len => ∃ lb : List Byte, lb.length < lenWidth cfg ∧
      rx = ⟨.len, rx.ctr, lenReg cfg (lenpartial cfg lb), lenReg cfg lb.length, cfg.ck.fold ([rx.ctr] ++ lb), []⟩
  | .data => ∃ (n : Nat) (p : List Byte), 1 ≤ n ∧ n ≤ cfg.maxPayload ∧ p.length < n ∧
      rx = ⟨.data, rx.ctr, lenReg cfg n, lenReg cfg p.length,
        cfg.ck.fold ([rx.ctr] ++ lenbytes cfg n ++ p), Memory.ofBytes p⟩
  | .csum => ∃ (n : Nat) (p : List Byte), n ≤ cfg.maxPayload ∧ p.length = n ∧
      rx = ⟨.csum, rx.ctr, lenReg cfg n, lenReg cfg n,
        cfg.ck.fold ([rx.ctr] ++ lenbytes cfg n ++ p), Memory.ofBytes p⟩

/-- The transmit half is on the line of its phase in the table of R38. -/
def TxHalf.Inv (cfg : Config) (tx : TxHalf) : Prop :=
  match tx.phase with
  | .idle => tx = canonicalIdle cfg
  | .data => ∃ (ctr : Byte) (n : Nat) (q : List Byte), 1 ≤ n ∧ n ≤ cfg.maxPayload ∧ q.length < n ∧
      tx = ⟨.data, lenReg cfg (n - q.length), cfg.ck.fold ([ctr] ++ lenbytes cfg n ++ q)⟩

/-- The invariant of the reachable states: sizes that fit (R7(a)), and both halves on a line of their tables (R37,
R38). -/
structure State.Inv (s : State) : Prop where
  fits : s.cfg.wf = true
  rx   : s.rx.Inv s.cfg
  tx   : s.tx.Inv s.cfg

/-- Each of the three registers has 8·`LEN_BYTES` bits (R22, R23). -/
def State.WidthsOk (s : State) : Prop :=
  s.rx.len.width = 8 * lenWidth s.cfg ∧ s.rx.idx.width = 8 * lenWidth s.cfg ∧ s.tx.rem.width = 8 * lenWidth s.cfg

/-- The canonical form of `RX_BUF`, and no entry outside its index range (R51). -/
def State.BufOk (s : State) : Prop := Memory.wf s.rx.buf ∧ ∀ c ∈ s.rx.buf, c.1 < s.cfg.maxPayload

/-- `s` is reached from the reset of its configuration by presenting words (R37, R45). -/
def State.Reachable (s : State) : Prop := ∃ cfg ws r, cfg.wf = true ∧ run ws (State.resetOf cfg) = some r ∧ r.final = s

end Sys2Proof.Machine
end

