-- ==== Sys2Proof/Certificates/Slice0/Obligations.lean ====
section
/-! DEFINITION. The statements for the provers. A docstring names the rule of spec/ it formalises. -/

open Sys2Proof Sys2Proof.Machine

/-! ### Reset and the system operations -/

/-- R45: after reset, by the reset line or by `RST`, every register has the value of the table, and the
configuration is unchanged. -/
def Obligations.ResetGivesTheTableOfValues : Prop :=
  (∀ s : State, ((∃ cfg, s = State.resetOf cfg) ∨ ∃ s0, exec .rst s0 = .next s) →
    s.rx.phase = .hunt ∧ s.rx.ctr = 0 ∧ s.rx.len = lenReg s.cfg 0 ∧ s.rx.idx = lenReg s.cfg 0 ∧
    s.rx.sum = s.cfg.ck.init ∧
    rxPay s.cfg s.rx = [] ∧ s.tx.phase = .idle ∧ s.tx.rem = lenReg s.cfg 0 ∧
    s.tx.sum = s.cfg.ck.init ∧ status s = 0) ∧
  (∀ cfg, (State.resetOf cfg).cfg = cfg) ∧ (∀ s t, exec .rst s = .next t → t.cfg = s.cfg) ∧
  (∀ s, ∃ t, exec .rst s = .next t) ∧
  Checksum.init .sum8n = 0 ∧ Checksum.init .sum8 = 0 ∧ Checksum.init .xor8 = 0 ∧ Checksum.init .crc8 = 0

/-- R182: `RST` makes both halves canonical, as reset does and as `RXA` followed by `TXA` does; it is never refused,
produces no event, emits nothing, and leaves the configuration. -/
def Obligations.RstMakesBothHalvesCanonical : Prop :=
  encode .rst = 0x60000000 ∧
  ∀ s : State,
    exec .rst s = .next { s with
      rx := ⟨.hunt, 0, lenReg s.cfg 0, lenReg s.cfg 0, s.cfg.ck.init, []⟩, tx := ⟨.idle, lenReg s.cfg 0, s.cfg.ck.init⟩, result := some ⟨.ok, .none, []⟩ } ∧
    (∃ t, exec .rst s = .next t ∧ t.rx = (State.resetOf s.cfg).rx ∧ t.tx = (State.resetOf s.cfg).tx ∧ t.cfg = s.cfg) ∧
    ∃ u, exec .rxa s = .next u ∧ exec .txa u = exec .rst s

/-- R181: `NOP` writes no register, and commutes with every operation. -/
def Obligations.NopWritesNothingAndCommutes : Prop :=
  encode .nop = 0x00000000 ∧
  (∀ s : State, exec .nop s = .next { s with result := some ⟨.ok, .none, []⟩ }) ∧
  ∀ (s : State) (w : Word), ∃ r r' a, run [encode .nop, w] s = some r ∧ run [w, encode .nop] s = some r' ∧
    r.results = [⟨.ok, .none, []⟩, a] ∧ r'.results = [a, ⟨.ok, .none, []⟩] ∧
    r.final.cfg = r'.final.cfg ∧ r.final.rx = r'.final.rx ∧ r.final.tx = r'.final.tx

/-- R183, R84 and R85: a word with a reserved operation code or a reserved bit set answers `ERR_ILLEGAL`, in every
state, and nothing else happens. -/
def Obligations.IllegalWordsAnswerErrIllegal : Prop :=
  ∀ (w : Word), (7 ≤ w.toNat / 2 ^ 28 ∨
      (w.toNat / 2 ^ 28 ∈ [0, 2, 5, 6] ∧ w.toNat % 2 ^ 28 ≠ 0) ∨
      (w.toNat / 2 ^ 28 ∈ [1, 4] ∧ w.toNat / 256 % 2 ^ 20 ≠ 0) ∨
      (w.toNat / 2 ^ 28 = 3 ∧ w.toNat / 2 ^ 24 % 16 ≠ 0)) →
    (∃ e, decode w = .illegal e) ∧
    ∀ s : State, runWord w s = .next { s with result := some ⟨.errIllegal, .none, []⟩ } ∧
      step (s.present w) = .next { s with result := some ⟨.errIllegal, .none, []⟩ }

/-! ### Decoding -/

/-- R79, R81, R82 and R83: the operation code is bits 31:28; a legal word is the operation of its code with its
operand fields read as unsigned numbers, and every operand value is legal. -/
def Obligations.LegalWordsDecodeToTheirOperation : Prop :=
  ∀ w : Word,
    (w.toNat = 0 → decode w = .instr .nop) ∧
    (∀ b, b < 256 → w.toNat = 1 * 2 ^ 28 + b → decode w = .instr (.rxb (BitVec.ofNat 8 b))) ∧
    (w.toNat = 2 * 2 ^ 28 → decode w = .instr .rxa) ∧
    (∀ ctr len, ctr < 256 → len < 65536 → w.toNat = 3 * 2 ^ 28 + ctr * 2 ^ 16 + len →
      decode w = .instr (.txs (BitVec.ofNat 8 ctr) (BitVec.ofNat 16 len))) ∧
    (∀ b, b < 256 → w.toNat = 4 * 2 ^ 28 + b → decode w = .instr (.txd (BitVec.ofNat 8 b))) ∧
    (w.toNat = 5 * 2 ^ 28 → decode w = .instr .txa) ∧
    (w.toNat = 6 * 2 ^ 28 → decode w = .instr .rst)

/-- R80: a word is the operation of a row of the opcode table exactly when `(w and mask) = match`; the rows are
disjoint; a word that matches none is illegal. -/
def Obligations.OpcodeTableRowsAgreeWithDecode : Prop :=
  ∀ w : Word,
    (∀ row ∈ opcodeTable, w &&& row.2.2 = row.2.1 ↔ ∃ i, decode w = .instr i ∧ mnemonic i = row.1) ∧
    (∀ row ∈ opcodeTable, ∀ row' ∈ opcodeTable, w &&& row.2.2 = row.2.1 → w &&& row'.2.2 = row'.2.1 → row = row') ∧
    ((∀ row ∈ opcodeTable, w &&& row.2.2 ≠ row.2.1) ↔ ∃ e, decode w = .illegal e)

/-- Every operation's word decodes to it, with every operand at every value, and it has no other word. -/
def Obligations.DecodeInvertsEncode : Prop :=
  (∀ i : Instr, decode (encode i) = .instr i) ∧ ∀ (w : Word) (i : Instr), decode w = .instr i → encode i = w

/-- The words of the spec's own examples (R85, R87, R132, R183) decode as it says. -/
def Obligations.SpecWordsDecodeAsWritten : Prop :=
  decode 0x1000005A = .instr (.rxb 0x5A) ∧ decode 0x100000FF = .instr (.rxb 255) ∧
  decode 0x20000000 = .instr .rxa ∧ decode 0x30000004 = .instr (.txs 0x00 4) ∧
  decode 0x302A0003 = .instr (.txs 0x2A 3) ∧ decode 0x30090100 = .instr (.txs 0x09 256) ∧
  decode 0x400000F2 = .instr (.txd 0xF2) ∧ decode 0x50000000 = .instr .txa ∧
  decode 0x60000000 = .instr .rst ∧ decode 0x00000000 = .instr .nop ∧
  decode 0x70000000 = .illegal (.reservedOp 7) ∧ decode 0x00000001 = .illegal (.reservedBits 0) ∧
  decode 0x10000100 = .illegal (.reservedBits 1) ∧ decode 0x31010002 = .illegal (.reservedBits 3)

/-! ### The step -/

/-- A step runs the operation its word decodes to, after taking the word from those to present. With no word to
present the machine is idle: the model's choice (log 3). -/
def Obligations.StepRunsTheDecodedWord : Prop :=
  ∀ (s : State) (w : Word) (ws : List Word), s.input = w :: ws →
    (∀ i, decode w = .instr i → step s = exec i { s with input := ws }) ∧
    (∀ e, decode w = .illegal e → step s = .next { s with input := ws, result := some ⟨.errIllegal, .none, []⟩ })

/-- R233: the step function is total: in every state every word has an outcome. -/
def Obligations.EveryWordHasAnOutcomeInEveryState : Prop :=
  ∀ (s : State), (∃ t, step s = .next t) ∧
    ∀ w : Word, ∃ t r, step (s.present w) = .next t ∧ t.result = some r ∧ t.input = s.input

/-- R58: the result of a sequence of operations is the left fold of the step function over it. -/
def Obligations.SequencesAreFoldsOfSteps : Prop :=
  ∀ (s : State), run [] s = some ⟨[], s.setInput []⟩ ∧
    (∀ w t, runWord w (s.setInput []) = .next t → run [w] s = some ⟨t.result.toList, t⟩) ∧
    ∀ ws ws' : List Word, ∃ r r', run ws s = some r ∧ run ws' r.final = some r' ∧
      run (ws ++ ws') s = some ⟨r.results ++ r'.results, r'.final⟩ ∧ r.results.length = ws.length

/-- R41: no step writes the configuration. -/
def Obligations.NoStepWritesTheConfiguration : Prop :=
  ∀ s t : State, step s = .next t → t.cfg = s.cfg

/-! ### Transmit operations -/

/-- R132: `TXS ctr, len`, every branch of its rule. -/
def Obligations.TxsFollowsItsRule : Prop :=
  (∀ ctr len, encode (.txs ctr len) = BitVec.ofNat 32 (0x30000000 + ctr.toNat * 65536 + len.toNat)) ∧
  ∀ (s : State) (ctr : Byte) (len : Half),
    (s.tx.phase = .data → exec (.txs ctr len) s = .next { s with result := some ⟨.errBusy, .none, []⟩ }) ∧
    (s.tx.phase = .idle → s.cfg.maxPayload < len.toNat →
      exec (.txs ctr len) s = .next { s with result := some ⟨.errLen, .none, []⟩ }) ∧
    (s.tx.phase = .idle → len.toNat ≤ s.cfg.maxPayload → len = 0 →
      exec (.txs ctr len) s = .next { s with
        tx := ⟨.idle, lenReg s.cfg 0, s.cfg.ck.init⟩,
        result := some ⟨.ok, .none, [s.cfg.marker, ctr] ++ lenbytes s.cfg 0 ++
          [s.cfg.ck.fin (s.cfg.ck.fold ([ctr] ++ lenbytes s.cfg 0))]⟩ }) ∧
    (s.tx.phase = .idle → len.toNat ≤ s.cfg.maxPayload → len ≠ 0 →
      exec (.txs ctr len) s = .next { s with
        tx := ⟨.data, lenReg s.cfg len.toNat, s.cfg.ck.fold ([ctr] ++ lenbytes s.cfg len.toNat)⟩,
        result := some ⟨.ok, .none, [s.cfg.marker, ctr] ++ lenbytes s.cfg len.toNat⟩ })

/-- R134: `TXD b`, every branch of its rule. `TX_REM <- TX_REM - 1` is `LenReg.pred` (R23: `RegistersKeepTheirWidths`). -/
def Obligations.TxdFollowsItsRule : Prop :=
  (∀ b, encode (.txd b) = BitVec.ofNat 32 (0x40000000 + b.toNat)) ∧
  ∀ (s : State) (b : Byte),
    (s.tx.phase = .idle → exec (.txd b) s = .next { s with result := some ⟨.errIdle, .none, []⟩ }) ∧
    (s.tx.phase = .data → s.tx.rem.toNat = 1 →
      exec (.txd b) s = .next { s with
        tx := ⟨.idle, lenReg s.cfg 0, s.cfg.ck.init⟩,
        result := some ⟨.ok, .none, [b, s.cfg.ck.fin (s.cfg.ck.step s.tx.sum b)]⟩ }) ∧
    (s.tx.phase = .data → s.tx.rem.toNat ≠ 1 →
      exec (.txd b) s = .next { s with
        tx := ⟨.data, s.tx.rem.pred, s.cfg.ck.step s.tx.sum b⟩, result := some ⟨.ok, .none, [b]⟩ })

/-- R136: `TXA` gives the canonical idle state, in every state, emits nothing, and in `IDLE` (a state the machine can
be in) changes nothing. -/
def Obligations.TxaGivesCanonicalIdle : Prop :=
  encode .txa = 0x50000000 ∧
  ∀ s : State, exec .txa s = .next { s with tx := ⟨.idle, lenReg s.cfg 0, s.cfg.ck.init⟩, result := some ⟨.ok, .none, []⟩ } ∧
    (s.Inv → s.tx.phase = .idle → ∃ t, exec .txa s = .next t ∧ t.tx = s.tx)

/-- The frame of the transmit operations (R59): receive half, configuration and the words to come are unchanged, all
of `RX_BUF` with them; no event; and what is refused leaves the transmit half. -/
def Obligations.TransmitOperationsLeaveTheReceiveHalf : Prop :=
  ∀ (s t : State) (i : Instr), ((∃ ctr len, i = .txs ctr len) ∨ (∃ b, i = .txd b) ∨ i = .txa) → exec i s = .next t →
    t.rx = s.rx ∧ (∀ a, memRead t.cfg t.rx.buf a = memRead s.cfg s.rx.buf a) ∧ t.cfg = s.cfg ∧ t.input = s.input ∧
    ∃ r, t.result = some r ∧ r.evt = .none ∧ (r.resp ≠ .ok → t.tx = s.tx ∧ r.tx = [])

/-! ### Receive operations -/

/-- R152: `RXB b`, every phase and every branch of its pseudocode. The field `buf` holds the bytes of `RX_PAY` (R32), so
`RX_PAY <- []` is `buf = []`; a write to a register of 8·`LEN_BYTES` bits is `lenReg`, counting one up is `LenReg.succ`
(R22: `RegistersKeepTheirWidths`). -/
def Obligations.RxbFollowsItsRule : Prop :=
  (∀ b, encode (.rxb b) = BitVec.ofNat 32 (0x10000000 + b.toNat)) ∧
  ∀ (s : State) (b : Byte),
    (s.rx.phase = .hunt → b ≠ s.cfg.marker →
      exec (.rxb b) s = .next { s with result := some ⟨.ok, .none, []⟩ }) ∧
    (s.rx.phase = .hunt → b = s.cfg.marker →
      exec (.rxb b) s = .next { s with rx := { s.rx with phase := .ctr }, result := some ⟨.ok, .none, []⟩ }) ∧
    (s.rx.phase = .ctr →
      exec (.rxb b) s = .next { s with
        rx := { s.rx with phase := .len, ctr := b, sum := s.cfg.ck.step s.cfg.ck.init b },
        result := some ⟨.ok, .none, []⟩ }) ∧
    (∀ len : Nat,
      (s.cfg.lenEndian = .little → len = s.rx.len.toNat ||| (b.toNat <<< (8 * s.rx.idx.toNat))) →
      (s.cfg.lenEndian = .big → len = (s.rx.len.toNat <<< 8) ||| b.toNat) →
      s.rx.phase = .len →
      (s.rx.idx.toNat + 1 < lenWidth s.cfg →
        exec (.rxb b) s = .next { s with
          rx := { s.rx with len := lenReg s.cfg len, sum := s.cfg.ck.step s.rx.sum b, idx := s.rx.idx.succ },
          result := some ⟨.ok, .none, []⟩ }) ∧
      (lenWidth s.cfg ≤ s.rx.idx.toNat + 1 → s.cfg.maxPayload < len →
        exec (.rxb b) s = .next { s with
          rx := ⟨.hunt, 0, lenReg s.cfg 0, lenReg s.cfg 0, s.cfg.ck.init, []⟩, result := some ⟨.ok, .corrupt .lenRange, []⟩ }) ∧
      (lenWidth s.cfg ≤ s.rx.idx.toNat + 1 → len ≤ s.cfg.maxPayload → len = 0 →
        exec (.rxb b) s = .next { s with
          rx := { s.rx with
            len := lenReg s.cfg 0, sum := s.cfg.ck.step s.rx.sum b, idx := lenReg s.cfg 0, phase := .csum },
          result := some ⟨.ok, .none, []⟩ }) ∧
      (lenWidth s.cfg ≤ s.rx.idx.toNat + 1 → len ≤ s.cfg.maxPayload → len ≠ 0 →
        exec (.rxb b) s = .next { s with
          rx := { s.rx with
            len := lenReg s.cfg len, sum := s.cfg.ck.step s.rx.sum b, idx := lenReg s.cfg 0, phase := .data },
          result := some ⟨.ok, .none, []⟩ })) ∧
    (s.rx.phase = .data →
      exec (.rxb b) s = .next { s with
        rx := { s.rx with
          buf := memWrite s.cfg s.rx.buf s.rx.idx.toNat b, sum := s.cfg.ck.step s.rx.sum b, idx := s.rx.idx.succ,
          phase := if s.rx.idx.toNat + 1 = s.rx.len.toNat then .csum else .data },
        result := some ⟨.ok, .none, []⟩ }) ∧
    (s.rx.phase = .csum → s.cfg.ck.fin s.rx.sum = b →
      exec (.rxb b) s = .next { s with
        rx := ⟨.hunt, 0, lenReg s.cfg 0, lenReg s.cfg 0, s.cfg.ck.init, []⟩,
        result := some ⟨.ok, .frame s.rx.ctr s.rx.len.toNat ((List.range s.rx.len.toNat).map (memRead s.cfg s.rx.buf)), []⟩ }) ∧
    (s.rx.phase = .csum → s.cfg.ck.fin s.rx.sum ≠ b →
      exec (.rxb b) s = .next { s with
        rx := ⟨.hunt, 0, lenReg s.cfg 0, lenReg s.cfg 0, s.cfg.ck.init, []⟩, result := some ⟨.ok, .corrupt .checksum, []⟩ })

/-- R151 and R156 on `RX_PAY`, in the states R37 describes: in phase `DATA` the byte is appended to `RX_PAY`, in
phase `CSUM` the event carries `RX_PAY`, and the write index never passes the declared length. -/
def Obligations.PayloadAccumulatesAndIsDelivered : Prop :=
  ∀ (s : State) (b : Byte), s.Inv →
    (s.rx.phase = .data → ∃ t, exec (.rxb b) s = .next t ∧
      rxPay t.cfg t.rx = rxPay s.cfg s.rx ++ [b] ∧ (rxPay t.cfg t.rx).length = t.rx.idx.toNat ∧
      t.rx.idx.toNat = s.rx.idx.toNat + 1 ∧ t.rx.idx.toNat ≤ t.rx.len.toNat ∧
      (t.rx.phase = .csum ↔ t.rx.idx = t.rx.len)) ∧
    (s.rx.phase = .csum → s.cfg.ck.fin s.rx.sum = b → ∃ t, exec (.rxb b) s = .next t ∧
      t.result = some ⟨.ok, .frame s.rx.ctr s.rx.len.toNat (rxPay s.cfg s.rx), []⟩ ∧
      (rxPay s.cfg s.rx).length = s.rx.len.toNat ∧ s.rx.len.toNat ≤ s.cfg.maxPayload)

/-- R165: `RXA` gives the canonical hunt state in every state, without an event, and in `HUNT` (a state the machine
can be in) changes nothing. -/
def Obligations.RxaGivesCanonicalHunt : Prop :=
  encode .rxa = 0x20000000 ∧
  ∀ s : State,
    exec .rxa s = .next { s with rx := ⟨.hunt, 0, lenReg s.cfg 0, lenReg s.cfg 0, s.cfg.ck.init, []⟩, result := some ⟨.ok, .none, []⟩ } ∧
    (s.Inv → s.rx.phase = .hunt → ∃ t, exec .rxa s = .next t ∧ t.rx = s.rx)

/-- R158: each `RXB` answers `OK`, emits nothing and gives exactly one event; a `FRAME` only in phase `CSUM`, a
`CORRUPT` only on the last length byte or in phase `CSUM`, none in `HUNT`, `CTR` and `DATA`. -/
def Obligations.EventsComeOnlyAtTheirPhase : Prop :=
  ∀ (s t : State) (b : Byte), exec (.rxb b) s = .next t →
    ∃ e, t.result = some ⟨.ok, e, []⟩ ∧
      (∀ c n p, e = .frame c n p → s.rx.phase = .csum) ∧
      (∀ cause, e = .corrupt cause →
        (s.rx.phase = .len ∧ lenWidth s.cfg ≤ s.rx.idx.toNat + 1) ∨ s.rx.phase = .csum) ∧
      (s.rx.phase = .hunt ∨ s.rx.phase = .ctr ∨ s.rx.phase = .data → e = .none)

/-- R196: a `CORRUPT` makes the receive half canonical and touches nothing else; its two causes come from their own
conditions (R195). -/
def Obligations.CorruptLeavesOnlyTheEvent : Prop :=
  ∀ (s t : State) (b : Byte) (cause : Cause), exec (.rxb b) s = .next t →
    (t.result = some ⟨.ok, .corrupt cause, []⟩ ↔
      (s.rx.phase = .len ∧ lenWidth s.cfg ≤ s.rx.idx.toNat + 1 ∧ cause = .lenRange ∧
        s.cfg.maxPayload < mergeLen s.cfg s.rx.len.toNat s.rx.idx.toNat b) ∨
      (s.rx.phase = .csum ∧ s.cfg.ck.fin s.rx.sum ≠ b ∧ cause = .checksum)) ∧
    (t.result = some ⟨.ok, .corrupt cause, []⟩ →
      t = { s with
        rx := ⟨.hunt, 0, lenReg s.cfg 0, lenReg s.cfg 0, s.cfg.ck.init, []⟩, result := some ⟨.ok, .corrupt cause, []⟩ })

/-- The frame of `RXB` and `RXA` (R59): transmit half, configuration and the words to come are unchanged, nothing is
emitted. -/
def Obligations.ReceiveOperationsLeaveTheTransmitHalf : Prop :=
  ∀ (s t : State) (i : Instr), ((∃ b, i = .rxb b) ∨ i = .rxa) → exec i s = .next t →
    t.tx = s.tx ∧ t.cfg = s.cfg ∧ t.input = s.input ∧ ∃ r, t.result = some r ∧ r.resp = .ok ∧ r.tx = []

/-- The frame of `RXB` on the payload buffer (R51, R156): only phase `DATA` stores, one byte at the index
`rxStoreIndex` gives, and every other index reads as before. A return to `HUNT` from another phase empties `RX_PAY`
(R31), so the buffer lists nothing then: the model's reading of R32 (log 5). -/
def Obligations.RxbStoresOneByteAtItsIndex : Prop :=
  ∀ (s t : State) (b : Byte), exec (.rxb b) s = .next t →
    (s.rx.phase = .data → ∀ a, a ≠ rxStoreIndex s → Memory.get? t.rx.buf a = Memory.get? s.rx.buf a) ∧
    (s.rx.phase = .data → rxStoreIndex s < s.cfg.maxPayload →
      Memory.get? t.rx.buf (rxStoreIndex s) = some b ∧ memRead t.cfg t.rx.buf (rxStoreIndex s) = b) ∧
    (s.rx.phase ≠ .data → (s.rx.phase = .hunt ∨ t.rx.phase ≠ .hunt) →
      ∀ a, Memory.get? t.rx.buf a = Memory.get? s.rx.buf a) ∧
    (s.rx.phase ≠ .hunt → t.rx.phase = .hunt → t.rx.buf = [])

/-- R51 and R53: in the states R37 describes, every access to `RX_BUF` is in range, and every entry read was
written. -/
def Obligations.BufferAccessesAreInRange : Prop :=
  ∀ s : State, s.Inv →
    (s.rx.phase = .data → rxStoreIndex s < s.rx.len.toNat ∧ s.rx.len.toNat ≤ s.cfg.maxPayload) ∧
    (s.rx.phase = .csum → s.rx.len.toNat ≤ s.cfg.maxPayload ∧
      ∀ a, a < s.rx.len.toNat → ∃ v, Memory.get? s.rx.buf a = some v)

/-! ### Responses, status, ports -/

/-- R193: a refused operation is as if it had not been presented, except for its response, and a refusal is not
sticky. -/
def Obligations.RefusalsWriteNothing : Prop :=
  ∀ (s t : State) (w : Word) (r : Result), runWord w s = .next t → t.result = some r → r.resp ≠ .ok →
    r.evt = .none ∧ r.tx = [] ∧ t = { s with result := some r } ∧ ∀ w', runWord w' t = runWord w' s

/-- R192 and R198: each response code, from exactly which word and phase it comes; the illegal word is found before
the state is looked at, and `ERR_BUSY` is tested before `ERR_LEN`. -/
def Obligations.ResponsesComeFromTheirConditions : Prop :=
  respCode .ok = 0 ∧ respCode .errIllegal = 1 ∧ respCode .errBusy = 2 ∧ respCode .errIdle = 3 ∧ respCode .errLen = 4 ∧
  ∀ (s : State) (w : Word), ∃ t r, runWord w s = .next t ∧ t.result = some r ∧
    (r.resp = .errIllegal ↔ ∃ e, decode w = .illegal e) ∧
    (r.resp = .errBusy ↔ ∃ ctr len, decode w = .instr (.txs ctr len) ∧ s.tx.phase = .data) ∧
    (r.resp = .errIdle ↔ ∃ b, decode w = .instr (.txd b) ∧ s.tx.phase = .idle) ∧
    (r.resp = .errLen ↔
      ∃ ctr len, decode w = .instr (.txs ctr len) ∧ s.tx.phase = .idle ∧ s.cfg.maxPayload < len.toNat) ∧
    (r.resp ≠ .ok → t = { s with result := some r }) ∧
    (respCode r.resp).toNat < 5

/-- R39: the fields of `STATUS`, and its reset value. -/
def Obligations.StatusShowsThePhases : Prop :=
  (∀ s : State,
    (status s).toNat % 8 = (match s.rx.phase with | .hunt => 0 | .ctr => 1 | .len => 2 | .data => 3 | .csum => 4) ∧
    (status s).toNat / 8 % 2 = (if s.tx.phase = .data then 1 else 0) ∧ (status s).toNat / 16 = 0) ∧
  ∀ cfg, status (State.resetOf cfg) = 0

/-- R194: the fields of an event port; `evt_len` has 8·`LEN_BYTES` bits. -/
def Obligations.EventPortFieldsFollowTheTable : Prop :=
  ∀ (cfg : Config) (r : Result),
    (eventPort cfg r).resp.toNat =
      (match r.resp with | .ok => 0 | .errIllegal => 1 | .errBusy => 2 | .errIdle => 3 | .errLen => 4) ∧
    (r.evt = .none → (eventPort cfg r).evtKind = 0) ∧
    (∀ c n p, r.evt = .frame c n p → (eventPort cfg r).evtKind = 1 ∧ (eventPort cfg r).evtCtr = c ∧
      (eventPort cfg r).evtLen = lenReg cfg n ∧ (eventPort cfg r).evtPayload = p) ∧
    (r.evt = .corrupt .lenRange → (eventPort cfg r).evtKind = 2 ∧ (eventPort cfg r).evtCause = 1) ∧
    (r.evt = .corrupt .checksum → (eventPort cfg r).evtKind = 2 ∧ (eventPort cfg r).evtCause = 2) ∧
    ((∀ cause, r.evt ≠ .corrupt cause) → (eventPort cfg r).evtCause = 0) ∧
    ((∀ c n p, r.evt ≠ .frame c n p) →
      (eventPort cfg r).evtCtr = 0 ∧ (eventPort cfg r).evtLen = lenReg cfg 0 ∧ (eventPort cfg r).evtPayload = []) ∧
    (eventPort cfg r).evtLen.width = 8 * lenWidth cfg

/-! ### The two halves and the order of operations -/

/-- R59: the receive operations read and write only the receive half, the transmit operations only the transmit half,
and words of neither half touch nothing; so operations of the two halves commute. `RST` does not in general, and does
with a word of neither half and with itself. -/
def Obligations.HalvesShareNothing : Prop :=
  (∀ (s s' : State) (w : Word), side w = .receive → s'.cfg = s.cfg → s'.rx = s.rx →
    ∃ t t' r, runWord w s = .next t ∧ runWord w s' = .next t' ∧ t.rx = t'.rx ∧ t.tx = s.tx ∧ t'.tx = s'.tx ∧
      t.result = some r ∧ t'.result = some r ∧ r.tx = []) ∧
  (∀ (s s' : State) (w : Word), side w = .transmit → s'.cfg = s.cfg → s'.tx = s.tx →
    ∃ t t' r, runWord w s = .next t ∧ runWord w s' = .next t' ∧ t.tx = t'.tx ∧ t.rx = s.rx ∧ t'.rx = s'.rx ∧
      t.result = some r ∧ t'.result = some r ∧ r.evt = .none) ∧
  (∀ (s : State) (w : Word), side w = .neither → ∃ t, runWord w s = .next t ∧ t.rx = s.rx ∧ t.tx = s.tx) ∧
  (∀ (s t : State) (w : Word) (r : Result), runWord w s = .next t → t.result = some r → r.resp ≠ .ok →
    t.rx = s.rx ∧ t.tx = s.tx) ∧
  (∀ (s : State) (w w' : Word),
    (side w = .receive ∧ side w' = .transmit) ∨ (w = encode .rst ∧ (side w' = .neither ∨ w' = encode .rst)) →
    ∃ r r' a a', run [w, w'] s = some r ∧ run [w', w] s = some r' ∧ r.results = [a, a'] ∧ r'.results = [a', a] ∧
      r.final.cfg = r'.final.cfg ∧ r.final.rx = r'.final.rx ∧ r.final.tx = r'.final.tx ∧
      r.deliveries = r'.deliveries ∧ r.txStream = r'.txStream) ∧
  (∃ (s : State) (w : Word) (r r' : Run), side w = .receive ∧ run [encode .rst, w] s = some r ∧
    run [w, encode .rst] s = some r' ∧ r.final.rx ≠ r'.final.rx) ∧
  (∃ (s : State) (w : Word) (r r' : Run), side w = .transmit ∧ run [encode .rst, w] s = some r ∧
    run [w, encode .rst] s = some r' ∧ r.final.tx ≠ r'.final.tx)

/-- R60: how the received bytes are cut into runs, with transmit operations and `NOP`s between, changes neither the
state nor the events. -/
def Obligations.FragmentationIsInvisible : Prop :=
  ∀ (s : State) (a b : List Byte) (ws : List Word), (∀ w ∈ ws, side w = .transmit ∨ w = encode .nop) →
    ∃ r r' q, run (feedWords (a ++ b)) s = some r ∧ run (feedWords a ++ ws ++ feedWords b) s = some r' ∧
      run ws s = some q ∧ r'.final.cfg = r.final.cfg ∧ r'.final.rx = r.final.rx ∧ r'.final.tx = q.final.tx ∧
      r.final.tx = s.tx ∧ r'.deliveries = r.deliveries ∧ r'.txStream = q.txStream

/-! ### Invariants -/

/-- Every step keeps the invariant of the reachable states (R37, R38). -/
def Obligations.StepKeepsTheInvariant : Prop :=
  ∀ s t : State, s.Inv → step s = .next t → t.Inv

/-- The invariant holds after reset, for every configuration whose sizes fit. -/
def Obligations.ResetMeetsTheInvariant : Prop :=
  State.reset.Inv ∧ ∀ cfg : Config, cfg.wf = true → (State.resetOf cfg).Inv

/-- R37 and R38: every state reachable from reset by any sequence of operation words is on a line of each table. -/
def Obligations.ReachableStatesAreOnTheTables : Prop :=
  ∀ s : State, s.Reachable → s.rx.Inv s.cfg ∧ s.tx.Inv s.cfg

/-- From every state, each step keeps the canonical form of `RX_BUF` and its index range (R51); after reset both
hold. -/
def Obligations.StepKeepsTheBufferCanonical : Prop :=
  (∀ cfg, (State.resetOf cfg).BufOk) ∧ ∀ s t : State, s.BufOk → step s = .next t → t.BufOk

/-- R22 and R23: `RX_LEN`, `RX_IDX` and `TX_REM` have 8·`LEN_BYTES` bits: after reset, and in every state whose
registers have that width every step keeps it. What such a register holds after a write, and how it counts. -/
def Obligations.RegistersKeepTheirWidths : Prop :=
  (∀ cfg, (State.resetOf cfg).WidthsOk) ∧ (∀ s t : State, s.WidthsOk → step s = .next t → t.WidthsOk) ∧
  (∀ (cfg : Config) (n : Nat), (lenReg cfg n).width = 8 * lenWidth cfg ∧
    (lenReg cfg n).toNat = n % 2 ^ (8 * lenWidth cfg)) ∧
  ∀ r : LenReg, r.toNat < 2 ^ r.width ∧ r.succ.width = r.width ∧ r.pred.width = r.width ∧
    r.succ.toNat = (r.toNat + 1) % 2 ^ r.width ∧ (1 ≤ r.toNat → r.pred.toNat = r.toNat - 1)

/-! ### Checksums and the length field -/

/-- R101, R102, R103 and R104: the four named algorithms, in numbers, and their check value on "123456789". -/
def Obligations.NamedChecksumsComputeAsWritten : Prop :=
  (∀ s b : Byte,
    (Checksum.step .sum8n s b).toNat = (s.toNat + b.toNat) % 256 ∧
    (Checksum.fin .sum8n s).toNat = (256 - s.toNat) % 256 ∧
    (Checksum.step .sum8 s b).toNat = (s.toNat + b.toNat) % 256 ∧ Checksum.fin .sum8 s = s ∧
    Checksum.step .xor8 s b = s ^^^ b ∧ Checksum.fin .xor8 s = s ∧
    (Checksum.step .crc8 s b).toNat =
      (fun r => if r / 128 = 1 then (r * 2 % 256) ^^^ 7 else r * 2 % 256)^[8] (s.toNat ^^^ b.toNat) ∧
    Checksum.fin .crc8 s = s) ∧
  (∀ ck ∈ [Checksum.sum8n, .sum8, .xor8, .crc8], ck.init = 0 ∧ ck.of [] = 0) ∧
  (∀ l, ((Checksum.fold .sum8n l).toNat + (Checksum.of .sum8n l).toNat) % 256 = 0) ∧
  [0x00, 0x04, 0x01, 0x02, 0x03, 0x04].scanl (Checksum.step .sum8n) 0x00 = [0x00, 0x00, 0x04, 0x05, 0x07, 0x0A, 0x0E] ∧
  [0x00, 0x04, 0x01, 0x02, 0x03, 0x04].scanl (Checksum.step .xor8) 0x00 = [0x00, 0x00, 0x04, 0x05, 0x07, 0x04, 0x00] ∧
  [0x00, 0x04, 0x01, 0x02, 0x03, 0x04].scanl (Checksum.step .crc8) 0x00 = [0x00, 0x00, 0x1C, 0x53, 0xB0, 0x10, 0x6C] ∧
  Checksum.of .sum8n [0x00, 0x04, 0x01, 0x02, 0x03, 0x04] = 0xF2 ∧
  Checksum.of .sum8 [0x00, 0x04, 0x01, 0x02, 0x03, 0x04] = 0x0E ∧
  Checksum.of .xor8 [0x00, 0x04, 0x01, 0x02, 0x03, 0x04] = 0x00 ∧
  Checksum.of .crc8 [0x00, 0x04, 0x01, 0x02, 0x03, 0x04] = 0x6C ∧
  Checksum.of .sum8n [0x31, 0x32, 0x33, 0x34, 0x35, 0x36, 0x37, 0x38, 0x39] = 0x23 ∧
  Checksum.of .sum8 [0x31, 0x32, 0x33, 0x34, 0x35, 0x36, 0x37, 0x38, 0x39] = 0xDD ∧
  Checksum.of .xor8 [0x31, 0x32, 0x33, 0x34, 0x35, 0x36, 0x37, 0x38, 0x39] = 0x31 ∧
  Checksum.of .crc8 [0x31, 0x32, 0x33, 0x34, 0x35, 0x36, 0x37, 0x38, 0x39] = 0xF4 ∧
  Checksum.step .crc8 0x00 0x00 = 0x00 ∧ Checksum.step .crc8 0x00 0x01 = 0x07 ∧
  Checksum.step .crc8 0x00 0x02 = 0x0E ∧ Checksum.step .crc8 0x00 0x5A = 0x81 ∧
  Checksum.step .crc8 0x00 0x80 = 0x89 ∧ Checksum.step .crc8 0x00 0xFF = 0xF3 ∧
  ∀ l, Checksum.of .crc8 ([0x00] ++ l) = Checksum.of .crc8 l

/-- R106: the four named algorithms meet the law R105, single-byte sensitivity. -/
def Obligations.NamedChecksumsAreSensitive : Prop :=
  Checksum.Sensitive .sum8n ∧ Checksum.Sensitive .sum8 ∧ Checksum.Sensitive .xor8 ∧ Checksum.Sensitive .crc8

/-- R100: a checksum algorithm is any triple `(init, step, fin)` on bytes, and its value on a list is `fin` of the
left fold of `step` from `init`. -/
def Obligations.EveryTripleIsAChecksum : Prop :=
  (∀ (init : Byte) (step : Byte → Byte → Byte) (fin : Byte → Byte),
    (Checksum.ofTriple init step fin).init = init ∧ (Checksum.ofTriple init step fin).step = step ∧
    (Checksum.ofTriple init step fin).fin = fin) ∧
  ∀ (ck : Checksum) (l : List Byte) (b : Byte),
    ck.fold [] = ck.init ∧ ck.fold (l ++ [b]) = ck.step (ck.fold l) b ∧ ck.of l = ck.fin (ck.fold l)

/-- R73: the three forms of `lenbytes`. R74: `lenval` and `lenbytes` are inverse to each other, and `lenpartial`
follows its equations and agrees with `lenval` on whole length fields. -/
def Obligations.LengthCodecRoundTrips : Prop :=
  ∀ cfg : Config,
    (∀ n, n < 2 ^ (8 * lenWidth cfg) →
      (cfg.lenBytes = .one → (lenbytes cfg n).map (·.toNat) = [n]) ∧
      (cfg.lenBytes = .two → cfg.lenEndian = .big → (lenbytes cfg n).map (·.toNat) = [n / 256, n % 256]) ∧
      (cfg.lenBytes = .two → cfg.lenEndian = .little → (lenbytes cfg n).map (·.toNat) = [n % 256, n / 256])) ∧
    (∀ n, n < 2 ^ (8 * lenWidth cfg) → lenval cfg (lenbytes cfg n) = some n) ∧
    (∀ l : List Byte, l.length = lenWidth cfg → ∃ n, lenval cfg l = some n ∧ lenbytes cfg n = l ∧
      lenpartial cfg l = n) ∧
    lenpartial cfg [] = 0 ∧
    (∀ (l : List Byte) (b : Byte), l.length + 1 ≤ lenWidth cfg →
      (cfg.lenEndian = .big ∨ cfg.lenBytes = .one →
        lenpartial cfg (l ++ [b]) = (lenpartial cfg l <<< 8) ||| b.toNat) ∧
      (cfg.lenEndian = .little →
        lenpartial cfg (l ++ [b]) = lenpartial cfg l ||| (b.toNat <<< (8 * l.length))))

/-! ### encode and decode -/

/-- R108 and R70: the layout of an encoded frame, and its length. -/
def Obligations.EncodedFramesHaveTheLayout : Prop :=
  (∀ (cfg : Config) (payload : List Byte) (ctr : Byte), payload.length ≤ cfg.maxPayload →
    ∃ f cov, frameEncode cfg payload ctr = some f ∧ cov = [ctr] ++ lenbytes cfg payload.length ++ payload ∧
      f = [cfg.marker] ++ cov ++ [cfg.ck.of cov] ∧ f.length = hdr cfg + payload.length + 1 ∧
      f[0]? = some cfg.marker ∧ f[1]? = some ctr ∧ (f.drop 2).take (lenWidth cfg) = lenbytes cfg payload.length ∧
      (f.drop (hdr cfg)).take payload.length = payload ∧ f[hdr cfg + payload.length]? = some (cfg.ck.of cov)) ∧
  frameEncode Config.cfg0 [0x01, 0x02, 0x03, 0x04] 0x00 = some [0x5A, 0x00, 0x04, 0x01, 0x02, 0x03, 0x04, 0xF2]

/-- R109: `encode` has no value for a payload that is too long, `TXS` refuses such a length and emits nothing, and
`encode` is injective. -/
def Obligations.EncodeIsPartialAndInjective : Prop :=
  (∀ (cfg : Config) (payload : List Byte) (ctr : Byte), cfg.maxPayload < payload.length →
    frameEncode cfg payload ctr = none) ∧
  (∀ (s : State) (ctr : Byte) (len : Half), s.cfg.maxPayload < len.toNat → s.tx.phase = .idle →
    ∃ t, exec (.txs ctr len) s = .next t ∧ t.result = some ⟨.errLen, .none, []⟩) ∧
  ∀ (cfg : Config) (p p' f : List Byte) (c c' : Byte), cfg.wf = true →
    frameEncode cfg p c = some f → frameEncode cfg p' c' = some f → p = p' ∧ c = c'

/-- R110: `decode(l)` is `Frame(ctr, payload)` exactly when l is marker-free stray bytes followed by
`encode(payload, ctr)`, and `Corrupt` otherwise; the stray bytes, ctr and payload are unique. -/
def Obligations.DecodeIsStrayBytesThenOneFrame : Prop :=
  ∀ (cfg : Config) (l : List Byte), cfg.wf = true →
    (∀ ctr payload, frameDecode cfg l = .frame ctr payload ↔
      ∃ s f, cfg.marker ∉ s ∧ frameEncode cfg payload ctr = some f ∧ l = s ++ f) ∧
    ((¬ ∃ s f ctr payload, cfg.marker ∉ s ∧ frameEncode cfg payload ctr = some f ∧ l = s ++ f) →
      frameDecode cfg l = .corrupt) ∧
    ∀ s s' f f' ctr ctr' payload payload', cfg.marker ∉ s → cfg.marker ∉ s' →
      frameEncode cfg payload ctr = some f → frameEncode cfg payload' ctr' = some f' → l = s ++ f → l = s' ++ f' →
      s = s' ∧ ctr = ctr' ∧ payload = payload' ∧ s = l.takeWhile (· ≠ cfg.marker)

/-- R112: round trip, for every payload within `MAX_PAYLOAD` and every counter, whatever bytes they hold. -/
def Obligations.DecodeInvertsFrameEncode : Prop :=
  ∀ (cfg : Config) (payload : List Byte) (ctr : Byte), cfg.wf = true → payload.length ≤ cfg.maxPayload →
    ∃ f, frameEncode cfg payload ctr = some f ∧ frameDecode cfg f = .frame ctr payload

/-- R113: a frame changed in one byte other than the marker decodes to `Corrupt`; changed in the marker it decodes as
its rest does, which can be a frame. -/
def Obligations.OneChangedByteIsCorrupt : Prop :=
  (∀ (cfg : Config) (payload f : List Byte) (ctr v : Byte) (i : Nat), cfg.Legal →
    frameEncode cfg payload ctr = some f →
    (∀ h : i < f.length, 1 ≤ i → v ≠ f[i] → frameDecode cfg (f.set i v) = .corrupt) ∧
    (v ≠ cfg.marker → frameDecode cfg (f.set 0 v) = frameDecode cfg f.tail)) ∧
  frameEncode Config.cfg0 [0xA1, 0x5A, 0x07, 0x01, 0x33] 0x00 =
    some [0x5A, 0x00, 0x05, 0xA1, 0x5A, 0x07, 0x01, 0x33, 0xC5] ∧
  frameDecode Config.cfg0 [0x00, 0x00, 0x05, 0xA1, 0x5A, 0x07, 0x01, 0x33, 0xC5] = .frame 0x07 [0x33]

/-- R114: stray leading bytes other than the marker are skipped; a stray marker before a frame gives `Corrupt` under
the four named algorithms with a marker other than 0x00, and can give a wrong frame with marker 0x00. -/
def Obligations.StrayLeadingBytes : Prop :=
  (∀ (cfg : Config) (v : Byte) (l : List Byte), v ≠ cfg.marker → frameDecode cfg ([v] ++ l) = frameDecode cfg l) ∧
  (∀ (cfg : Config) (s l : List Byte), cfg.marker ∉ s → frameDecode cfg (s ++ l) = frameDecode cfg l) ∧
  (∀ ck ∈ [Checksum.sum8n, .sum8, .xor8, .crc8], ∀ (l : List Byte) (m : Byte), ck.of (m :: l) ≠ ck.of l ↔ m ≠ 0) ∧
  (∀ (cfg : Config) (p f : List Byte) (c : Byte), cfg.wf = true → cfg.ck ∈ [Checksum.sum8n, .sum8, .xor8, .crc8] →
    cfg.marker ≠ 0 → frameEncode cfg p c = some f → frameDecode cfg ([cfg.marker] ++ f) = .corrupt) ∧
  frameEncode { Config.cfg0 with marker := 0 } [0x11, 0x22] 0x03 = some [0x00, 0x03, 0x02, 0x11, 0x22, 0xC8] ∧
  frameDecode { Config.cfg0 with marker := 0 } [0x00, 0x00, 0x03, 0x02, 0x11, 0x22, 0xC8] = .frame 0x00 [0x02, 0x11, 0x22]

/-! ### The machine computes encode and decode -/

/-- R138: from the canonical idle state, `send ctr, p` with anything but transmit operations and `RST` interleaved is
accepted throughout, emits exactly `encode(p, ctr)`, and ends in the canonical idle state. -/
def Obligations.SendEmitsTheEncodedFrame : Prop :=
  ∀ (s : State) (ctr : Byte) (p : List Byte) (ws : List Word), s.cfg.wf = true → s.tx = canonicalIdle s.cfg →
    p.length ≤ s.cfg.maxPayload → transmitWords ws = sendWords ctr p →
    ∃ r, run ws s = some r ∧ frameEncode s.cfg p ctr = some r.txStream ∧ r.final.tx = canonicalIdle s.cfg ∧
      ∀ x ∈ ws.zip r.results, side x.1 = .transmit → x.2.resp = .ok

/-- R139: the bytes `send ctr, p` emits from canonical idle depend on ctr, p and the configuration only. For a list of
65536 bytes or more the expansion of `send` is the model's choice (log 19). -/
def Obligations.ResendIsIdentical : Prop :=
  ∀ (s s' : State) (ctr : Byte) (p : List Byte), s'.cfg = s.cfg → s.tx = canonicalIdle s.cfg →
    s'.tx = canonicalIdle s.cfg →
    ∃ r r', run (sendWords ctr p) s = some r ∧ run (sendWords ctr p) s' = some r' ∧ r.txStream = r'.txStream

/-- R161: from the canonical hunt state, marker-free stray bytes and then an encoded frame give `NONE` on every byte
but the last and the frame on the last, with anything but receive operations and `RST` interleaved; and frames
received back to back are delivered one after another. -/
def Obligations.ReceivedFramesAreDelivered : Prop :=
  (∀ (s : State) (c : Byte) (stray p f : List Byte), s.cfg.wf = true → s.rx = canonicalHunt s.cfg →
    s.cfg.marker ∉ stray → frameEncode s.cfg p c = some f →
    (∃ r, run (feedWords (stray ++ f)) s = some r ∧ r.final.rx = canonicalHunt s.cfg ∧
      r.events = List.replicate (stray.length + f.length - 1) .none ++ [.frame c p.length p]) ∧
    ∀ ws, receiveWords ws = feedWords (stray ++ f) →
      ∃ r, run ws s = some r ∧ r.final.rx = canonicalHunt s.cfg ∧
        r.deliveries = [.frame c p.length p]) ∧
  ∀ (s : State) (frames : List (Byte × List Byte)), s.cfg.wf = true → s.rx = canonicalHunt s.cfg →
    (∀ x ∈ frames, x.2.length ≤ s.cfg.maxPayload) →
    ∃ r, run (feedWords (frames.flatMap fun x => frameBytes s.cfg x.2 x.1)) s = some r ∧
      r.final.rx = canonicalHunt s.cfg ∧
      r.deliveries = frames.map fun x => .frame x.1 x.2.length x.2

/-- R140: every frame the transmit half completes is delivered by a receive half of the same configuration, on its
last byte and nothing before. -/
def Obligations.SentFramesAreReceived : Prop :=
  ∀ (s s' : State) (ctr : Byte) (p : List Byte), s.cfg.wf = true → s'.cfg = s.cfg → s.tx = canonicalIdle s.cfg →
    s'.rx = canonicalHunt s.cfg → p.length ≤ s.cfg.maxPayload →
    ∃ r r', run (sendWords ctr p) s = some r ∧ run (feedWords r.txStream) s' = some r' ∧
      r'.events = List.replicate (r.txStream.length - 1) .none ++ [.frame ctr p.length p]

/-- R162: `decode(l)` is `Frame(c, p)` exactly when feeding l to a receive half in the canonical hunt state gives
exactly one event, that frame, on the last byte; in every other case it is `Corrupt`. -/
def Obligations.ReceiverAgreesWithDecode : Prop :=
  ∀ (s : State) (l : List Byte), s.cfg.wf = true → s.rx = canonicalHunt s.cfg →
    ∃ r, run (feedWords l) s = some r ∧
      (∀ c p, frameDecode s.cfg l = .frame c p ↔
        r.events = List.replicate (l.length - 1) .none ++ [.frame c p.length p]) ∧
      ((¬ ∃ c p, r.events = List.replicate (l.length - 1) .none ++ [.frame c p.length p]) →
        frameDecode s.cfg l = .corrupt)

/-- R163: the receive half delivers `FRAME(c, n, p)` on a byte exactly when it was canonical at some earlier point and
received from there marker-free stray bytes and then exactly the bytes of `encode(p, c)`, n the length of p. -/
def Obligations.OnlyReceivedFramesAreDelivered : Prop :=
  ∀ (s : State) (l : List Byte) (b c : Byte) (n : Nat) (p : List Byte), s.cfg.wf = true →
    s.rx = canonicalHunt s.cfg →
    ∃ r, run (feedWords (l ++ [b])) s = some r ∧
      (r.events.getLast? = some (.frame c n p) ↔
        ∃ before stray q, l ++ [b] = before ++ stray ++ frameBytes s.cfg p c ∧
          run (feedWords before) s = some q ∧ q.final.rx = canonicalHunt s.cfg ∧ s.cfg.marker ∉ stray ∧
          n = p.length ∧ p.length ≤ s.cfg.maxPayload)

/-- R160: when a sequence of received bytes from the canonical hunt state ends with an event, the receive half is what
it was before, and the transmit half is what the interleaved transmit operations alone make it. -/
def Obligations.EndedCandidatesLeaveNoTrace : Prop :=
  ∀ (s : State) (ws : List Word) (b : Byte), s.rx = canonicalHunt s.cfg →
    (∀ w ∈ ws, side w = .transmit ∨ ∃ x, w = encode (.rxb x)) →
    ∃ r q, run (ws ++ [encode (.rxb b)]) s = some r ∧ run (transmitWords ws) s = some q ∧
      r.final.tx = q.final.tx ∧ r.final.cfg = s.cfg ∧
      ∀ e, r.events.getLast? = some e → e ≠ .none → r.final.rx = s.rx

/-- From R164: a received frame with one byte changed, other than the marker and the length field, gives
`CORRUPT(CHECKSUM)` on its last byte and nothing else. -/
def Obligations.ChangedByteIsRejectedByTheReceiver : Prop :=
  ∀ (s : State) (c v : Byte) (p f : List Byte) (i : Nat), s.cfg.Legal → s.rx = canonicalHunt s.cfg →
    frameEncode s.cfg p c = some f → (i = 1 ∨ hdr s.cfg ≤ i) → ∀ h : i < f.length, v ≠ f[i] →
    ∃ r, run (feedWords (f.set i v)) s = some r ∧ r.final.rx = canonicalHunt s.cfg ∧
      r.events = List.replicate (f.length - 1) .none ++ [.corrupt .checksum]

/-- From R225: a candidate that has just declared the length L ends, with one event, on the (L + 1)-th byte from
there and not before. -/
def Obligations.CandidateEndsAfterItsDeclaredLength : Prop :=
  ∀ (s : State) (l : List Byte), s.Inv → (s.rx.phase = .data ∧ s.rx.idx.toNat = 0) ∨ (s.rx.phase = .csum ∧ s.rx.len.toNat = 0) →
    l.length = s.rx.len.toNat + 1 →
    ∃ r e, run (feedWords l) s = some r ∧ r.final.rx = canonicalHunt s.cfg ∧ e ≠ .none ∧
      r.events = List.replicate s.rx.len.toNat .none ++ [e]

/-- The spec's own examples of the hazards: a false marker swallows a frame (R224), and a length changed downwards is
accepted (R226), both in CFG0 from reset. -/
def Obligations.HazardExamplesHappen : Prop :=
  (∃ r, run (feedWords [0x5A, 0x5A, 0x03, 0x02, 0x11, 0x22, 0xC8, 0x5A, 0x03, 0x02, 0x11, 0x22, 0xC8])
      (State.resetOf Config.cfg0) = some r ∧
    r.events = List.replicate 6 .none ++ [.corrupt .checksum] ++ List.replicate 5 .none ++
      [.frame 0x03 2 [0x11, 0x22]]) ∧
  ∃ r, run (feedWords [0x5A, 0x00, 0x01, 0x01, 0xFE, 0x09, 0xF5]) (State.resetOf Config.cfg0) = some r ∧
    r.events = List.replicate 4 .none ++ [.frame 0x00 1 [0x01]] ++ List.replicate 2 .none ∧
    r.final.rx = canonicalHunt Config.cfg0

/-! ### The textual syntax -/

/-- R87 and R88: a line whose operands fit assembles to the words of its operations. That no other line assembles is
the model's choice (logs 14, 19). -/
def Obligations.LinesAssembleToTheirWords : Prop :=
  (∀ l : AsmLine, (∃ ws, assemble l = some ws) ↔ l.wf = true) ∧
  assemble .nop = some [encode .nop] ∧ assemble .rxa = some [encode .rxa] ∧ assemble .txa = some [encode .txa] ∧
  assemble .rst = some [encode .rst] ∧
  (∀ b : Byte, assemble (.rxb b.toNat) = some [encode (.rxb b)] ∧ assemble (.txd b.toNat) = some [encode (.txd b)]) ∧
  (∀ (ctr : Byte) (len : Half), assemble (.txs ctr.toNat len.toNat) = some [encode (.txs ctr len)]) ∧
  (∀ w : Word, assemble (.word w.toNat) = some [w]) ∧
  (∀ (ctr : Byte) (p : List Byte), p.length < 65536 →
    assemble (.send ctr.toNat (p.map (·.toNat))) = some (sendWords ctr p)) ∧
  ∀ l : List Byte, assemble (.feed (l.map (·.toNat))) = some (feedWords l)
end

