-- ==== Sys2Proof/Laws/Checksum.lean ====
section
/-! SUPPORT. When a checksum algorithm meets the law R105, and that the default configuration is legal. -/

namespace Sys2Proof

variable {ck : Checksum}

theorem Checksum.foldl_step_injective (h : ∀ s s' b, ck.step s b = ck.step s' b → s = s') (l : List Byte) (s s' : Byte) :
    l.foldl ck.step s = l.foldl ck.step s' → s = s' := by
  induction l generalizing s s' with
  | nil => exact id
  | cons b l ih => exact fun e => h _ _ _ (ih _ _ e)

/-- An algorithm meets R105 when `step` is injective in each argument and `fin` is injective. -/
theorem Checksum.sensitive_of_injective (hstate : ∀ s s' b, ck.step s b = ck.step s' b → s = s')
    (hbyte : ∀ s b b', ck.step s b = ck.step s b' → b = b') (hfin : ∀ s s', ck.fin s = ck.fin s' → s = s') :
    ck.Sensitive := by
  have key : ∀ (l : List Byte) (i : Nat) (v s : Byte) (h : i < l.length), v ≠ l[i] →
      (l.set i v).foldl ck.step s ≠ l.foldl ck.step s := by
    intro l
    induction l with
    | nil => intro i v s h; simp at h
    | cons b l ih =>
      intro i v s h hv e
      cases i with
      | zero =>
        simp at e hv
        exact hv (hbyte _ _ _ (Checksum.foldl_step_injective hstate l _ _ e))
      | succ i =>
        simp at e h hv
        exact ih i v _ h hv e
  exact fun l i v h hv e => key l i v _ h hv (hfin _ _ e)

theorem Checksum.sensitive_sum8n : Checksum.Sensitive .sum8n := by
  refine Checksum.sensitive_of_injective ?_ ?_ ?_ <;> simp [Checksum.step, Checksum.fin]

theorem Config.cfg0_legal : Config.Legal Config.cfg0 := ⟨by decide, Checksum.sensitive_sum8n⟩

end Sys2Proof
end

