-- ==== Sys2Proof/Laws/Decode.lean ====
section
/-! SUPPORT. The fields of a word, and the encoder's words, as numbers. -/

namespace Sys2Proof

theorem opField_toNat (w : Word) : (opField w).toNat = w.toNat / 2 ^ 28 := by
  have := w.isLt
  simp [opField, BitVec.extractLsb', Nat.shiftRight_eq_div_pow]
  omega

theorem reservedZ_eq_zero_iff (w : Word) : reservedZ w = 0 ↔ w.toNat % 2 ^ 28 = 0 := by
  simp [reservedZ, BitVec.toNat_eq, BitVec.extractLsb']

theorem reservedB_eq_zero_iff (w : Word) : reservedB w = 0 ↔ w.toNat / 256 % 2 ^ 20 = 0 := by
  simp [reservedB, BitVec.toNat_eq, BitVec.extractLsb', Nat.shiftRight_eq_div_pow]

theorem reservedS_eq_zero_iff (w : Word) : reservedS w = 0 ↔ w.toNat / 2 ^ 24 % 16 = 0 := by
  simp [reservedS, BitVec.toNat_eq, BitVec.extractLsb', Nat.shiftRight_eq_div_pow]

theorem bField_eq (w : Word) : bField w = BitVec.ofNat 8 w.toNat := by
  simp [bField, BitVec.extractLsb', Nat.shiftRight_eq_div_pow]

theorem lenField_eq (w : Word) : lenField w = BitVec.ofNat 16 w.toNat := by
  simp [lenField, BitVec.extractLsb', Nat.shiftRight_eq_div_pow]

theorem ctrField_eq (w : Word) : ctrField w = BitVec.ofNat 8 (w.toNat / 65536) := by
  simp [ctrField, BitVec.extractLsb', Nat.shiftRight_eq_div_pow]

theorem toNat_append_eq {n m : Nat} (x : BitVec n) (y : BitVec m) :
    (x ++ y).toNat = x.toNat * 2 ^ m + y.toNat := by
  rw [BitVec.toNat_append, Nat.shiftLeft_eq, Nat.mul_comm, Nat.two_pow_add_eq_or_of_lt y.isLt]

/-- The word of an operation as a number: the operation code in the top four bits, the operands below. -/
theorem encode_toNat (i : Instr) :
    (encode i).toNat =
      match i with
      | .nop => 0
      | .rxb b => 1 * 2 ^ 28 + b.toNat
      | .rxa => 2 * 2 ^ 28
      | .txs ctr len => 3 * 2 ^ 28 + ctr.toNat * 2 ^ 16 + len.toNat
      | .txd b => 4 * 2 ^ 28 + b.toNat
      | .txa => 5 * 2 ^ 28
      | .rst => 6 * 2 ^ 28 := by
  cases i <;> simp only [encode, encodeZ, encodeB, encodeS, toNat_append_eq] <;> simp <;> omega

end Sys2Proof
end

