-- ==== Sys2Proof/Laws/State.lean ====
section
/-! SUPPORT. One lemma per field per update of the state, so that no proof unfolds a record update. -/

namespace Sys2Proof.Machine

variable (s : State) (rx : RxHalf) (tx : TxHalf) (ws : List Word) (r : Option Result)

@[simp] theorem State.setRx_cfg : (s.setRx rx).cfg = s.cfg := rfl
@[simp] theorem State.setRx_rx : (s.setRx rx).rx = rx := rfl
@[simp] theorem State.setRx_tx : (s.setRx rx).tx = s.tx := rfl
@[simp] theorem State.setRx_input : (s.setRx rx).input = s.input := rfl
@[simp] theorem State.setRx_result : (s.setRx rx).result = s.result := rfl

@[simp] theorem State.setTx_cfg : (s.setTx tx).cfg = s.cfg := rfl
@[simp] theorem State.setTx_rx : (s.setTx tx).rx = s.rx := rfl
@[simp] theorem State.setTx_tx : (s.setTx tx).tx = tx := rfl
@[simp] theorem State.setTx_input : (s.setTx tx).input = s.input := rfl
@[simp] theorem State.setTx_result : (s.setTx tx).result = s.result := rfl

@[simp] theorem State.setInput_cfg : (s.setInput ws).cfg = s.cfg := rfl
@[simp] theorem State.setInput_rx : (s.setInput ws).rx = s.rx := rfl
@[simp] theorem State.setInput_tx : (s.setInput ws).tx = s.tx := rfl
@[simp] theorem State.setInput_input : (s.setInput ws).input = ws := rfl
@[simp] theorem State.setInput_result : (s.setInput ws).result = s.result := rfl

@[simp] theorem State.setResult_cfg : (s.setResult r).cfg = s.cfg := rfl
@[simp] theorem State.setResult_rx : (s.setResult r).rx = s.rx := rfl
@[simp] theorem State.setResult_tx : (s.setResult r).tx = s.tx := rfl
@[simp] theorem State.setResult_input : (s.setResult r).input = s.input := rfl
@[simp] theorem State.setResult_result : (s.setResult r).result = r := rfl

end Sys2Proof.Machine
end

