-- ==== Sys2Proof/Laws/Ops.lean ====
section
/-! SUPPORT. One lemma per shared operation, saying everything it does to the state. -/

namespace Sys2Proof.Machine

variable (s : State)

/-- An accepted operation writes its result and nothing else. -/
theorem State.answerOk_eq (bytes : List Byte) :
    s.answerOk bytes = { s with result := some ⟨.ok, .none, bytes⟩ } := rfl

@[simp] theorem State.answerOk_cfg (bytes : List Byte) : (s.answerOk bytes).cfg = s.cfg := rfl
@[simp] theorem State.answerOk_rx (bytes : List Byte) : (s.answerOk bytes).rx = s.rx := rfl
@[simp] theorem State.answerOk_tx (bytes : List Byte) : (s.answerOk bytes).tx = s.tx := rfl
@[simp] theorem State.answerOk_input (bytes : List Byte) : (s.answerOk bytes).input = s.input := rfl
@[simp] theorem State.answerOk_result (bytes : List Byte) :
    (s.answerOk bytes).result = some ⟨.ok, .none, bytes⟩ := rfl

/-- A refusal writes its response and nothing else (R193). -/
theorem State.refuse_eq (r : Resp) : s.refuse r = { s with result := some ⟨r, .none, []⟩ } := rfl

@[simp] theorem State.refuse_cfg (r : Resp) : (s.refuse r).cfg = s.cfg := rfl
@[simp] theorem State.refuse_rx (r : Resp) : (s.refuse r).rx = s.rx := rfl
@[simp] theorem State.refuse_tx (r : Resp) : (s.refuse r).tx = s.tx := rfl
@[simp] theorem State.refuse_input (r : Resp) : (s.refuse r).input = s.input := rfl
@[simp] theorem State.refuse_result (r : Resp) : (s.refuse r).result = some ⟨r, .none, []⟩ := rfl

/-- `raise Corrupt` writes the event and the canonical hunt state (R196). -/
theorem State.raiseCorrupt_eq (cause : Cause) :
    s.raiseCorrupt cause = { s with rx := canonicalHunt s.cfg, result := some ⟨.ok, .corrupt cause, []⟩ } := rfl

@[simp] theorem State.raiseCorrupt_cfg (c : Cause) : (s.raiseCorrupt c).cfg = s.cfg := rfl
@[simp] theorem State.raiseCorrupt_rx (c : Cause) : (s.raiseCorrupt c).rx = canonicalHunt s.cfg := rfl
@[simp] theorem State.raiseCorrupt_tx (c : Cause) : (s.raiseCorrupt c).tx = s.tx := rfl
@[simp] theorem State.raiseCorrupt_input (c : Cause) : (s.raiseCorrupt c).input = s.input := rfl
@[simp] theorem State.raiseCorrupt_result (c : Cause) :
    (s.raiseCorrupt c).result = some ⟨.ok, .corrupt c, []⟩ := rfl

/-- Delivery writes the event and the canonical hunt state (R157). -/
theorem State.deliver_eq (c : Byte) (n : Nat) (p : List Byte) :
    s.deliver c n p = { s with rx := canonicalHunt s.cfg, result := some ⟨.ok, .frame c n p, []⟩ } := rfl

@[simp] theorem State.deliver_cfg (c : Byte) (n : Nat) (p : List Byte) : (s.deliver c n p).cfg = s.cfg := rfl
@[simp] theorem State.deliver_rx (c : Byte) (n : Nat) (p : List Byte) :
    (s.deliver c n p).rx = canonicalHunt s.cfg := rfl
@[simp] theorem State.deliver_tx (c : Byte) (n : Nat) (p : List Byte) : (s.deliver c n p).tx = s.tx := rfl
@[simp] theorem State.deliver_input (c : Byte) (n : Nat) (p : List Byte) : (s.deliver c n p).input = s.input := rfl
@[simp] theorem State.deliver_result (c : Byte) (n : Nat) (p : List Byte) :
    (s.deliver c n p).result = some ⟨.ok, .frame c n p, []⟩ := rfl

@[simp] theorem State.huntAgain_cfg : s.huntAgain.cfg = s.cfg := rfl
@[simp] theorem State.huntAgain_rx : s.huntAgain.rx = canonicalHunt s.cfg := rfl
@[simp] theorem State.huntAgain_tx : s.huntAgain.tx = s.tx := rfl
@[simp] theorem State.huntAgain_input : s.huntAgain.input = s.input := rfl

@[simp] theorem State.idleAgain_cfg : s.idleAgain.cfg = s.cfg := rfl
@[simp] theorem State.idleAgain_rx : s.idleAgain.rx = s.rx := rfl
@[simp] theorem State.idleAgain_tx : s.idleAgain.tx = canonicalIdle s.cfg := rfl
@[simp] theorem State.idleAgain_input : s.idleAgain.input = s.input := rfl

@[simp] theorem State.illegalWord_cfg : s.illegalWord.cfg = s.cfg := rfl
@[simp] theorem State.illegalWord_rx : s.illegalWord.rx = s.rx := rfl
@[simp] theorem State.illegalWord_tx : s.illegalWord.tx = s.tx := rfl
@[simp] theorem State.illegalWord_input : s.illegalWord.input = s.input := rfl
@[simp] theorem State.illegalWord_result : s.illegalWord.result = some ⟨.errIllegal, .none, []⟩ := rfl

@[simp] theorem State.noOperation_cfg : s.noOperation.cfg = s.cfg := rfl
@[simp] theorem State.noOperation_rx : s.noOperation.rx = s.rx := rfl
@[simp] theorem State.noOperation_tx : s.noOperation.tx = s.tx := rfl
@[simp] theorem State.noOperation_input : s.noOperation.input = s.input := rfl
@[simp] theorem State.noOperation_result : s.noOperation.result = none := rfl

/-- Taking the next word leaves the words after it, and everything else. -/
theorem takeWord_cons (w : Word) (ws : List Word) (h : s.input = w :: ws) : takeWord s = some (w, s.setInput ws) := by
  simp [takeWord, h]

theorem takeWord_nil (h : s.input = []) : takeWord s = none := by simp [takeWord, h]

end Sys2Proof.Machine
end

