-- ==== Sys2Proof/Laws/Exec.lean ====
section
/-! SUPPORT. What one operation word can do, said once: the cases of `RXB`, `TXS` and `TXD`, what every word leaves
unchanged, and that no meaning looks at the words to come or at the last result. -/

namespace Sys2Proof.Machine

/-! ### The cases of the meanings -/

/-- `RXB` by phase. -/
theorem rxByte_hunt {b : Byte} {s : State} (h : s.rx.phase = .hunt) : rxByte b s = rxHunt b s := by simp [rxByte, h]
theorem rxByte_ctr {b : Byte} {s : State} (h : s.rx.phase = .ctr) : rxByte b s = rxCtr b s := by simp [rxByte, h]
theorem rxByte_len {b : Byte} {s : State} (h : s.rx.phase = .len) : rxByte b s = rxLen b s := by simp [rxByte, h]
theorem rxByte_data {b : Byte} {s : State} (h : s.rx.phase = .data) : rxByte b s = rxData b s := by simp [rxByte, h]
theorem rxByte_csum {b : Byte} {s : State} (h : s.rx.phase = .csum) : rxByte b s = rxCsum b s := by simp [rxByte, h]

/-- Everything `RXB` can do: accept the byte and write the receive half, raise Corrupt, or deliver the frame. -/
theorem rxByte_cases (b : Byte) (s : State) :
    (∃ rx, rxByte b s = (s.setRx rx).answerOk []) ∨
    (∃ cause, rxByte b s = s.raiseCorrupt cause ∧
      ((cause = .lenRange ∧ s.rx.phase = .len ∧ lenWidth s.cfg ≤ s.rx.idx.toNat + 1 ∧
          s.cfg.maxPayload < mergeLen s.cfg s.rx.len.toNat s.rx.idx.toNat b) ∨
        (cause = .checksum ∧ s.rx.phase = .csum ∧ s.cfg.ck.fin s.rx.sum ≠ b))) ∨
    (rxByte b s = s.deliver s.rx.ctr s.rx.len.toNat (memReadUpTo s.cfg s.rx.buf s.rx.len.toNat) ∧
      s.rx.phase = .csum ∧ s.cfg.ck.fin s.rx.sum = b) := by
  cases h : s.rx.phase
  case hunt =>
    rw [rxByte_hunt h, rxHunt]; split_ifs
    · exact .inl ⟨_, rfl⟩
    · exact .inl ⟨s.rx, rfl⟩
  case ctr => rw [rxByte_ctr h]; exact .inl ⟨_, rfl⟩
  case len =>
    rw [rxByte_len h, rxLen]; dsimp only; split_ifs with h₁ h₂
    · exact .inl ⟨_, rfl⟩
    · exact .inr (.inl ⟨_, rfl, .inl ⟨rfl, rfl, by omega, h₂⟩⟩)
    · exact .inl ⟨_, rfl⟩
    · exact .inl ⟨_, rfl⟩
  case data => rw [rxByte_data h]; exact .inl ⟨_, rfl⟩
  case csum =>
    rw [rxByte_csum h, rxCsum]; split_ifs with h₁
    · exact .inr (.inr ⟨rfl, rfl, h₁⟩)
    · exact .inr (.inl ⟨_, rfl, .inr ⟨rfl, rfl, h₁⟩⟩)

/-- Everything a transmit operation can do: refuse, or accept and write the transmit half. -/
theorem execTxs_cases (ctr : Byte) (len : Half) (s : State) :
    (execTxs ctr len s = .next (s.refuse .errBusy) ∧ s.tx.phase = .data) ∨
    (execTxs ctr len s = .next (s.refuse .errLen) ∧ s.tx.phase = .idle ∧ s.cfg.maxPayload < len.toNat) ∨
    (execTxs ctr len s = .next (txStart ctr len s) ∧ s.tx.phase = .idle ∧ len.toNat ≤ s.cfg.maxPayload ∧
      ∃ tx bytes, txStart ctr len s = (s.setTx tx).answerOk bytes) := by
  unfold execTxs
  cases h : s.tx.phase
  case data => simp
  case idle =>
    by_cases h₂ : len.toNat > s.cfg.maxPayload
    · exact .inr (.inl ⟨by simp [h₂], rfl, h₂⟩)
    · refine .inr (.inr ⟨by simp [h₂], rfl, by omega, ?_⟩)
      unfold txStart; split_ifs
      · exact ⟨_, _, rfl⟩
      · exact ⟨_, _, rfl⟩

theorem execTxd_cases (b : Byte) (s : State) :
    (execTxd b s = .next (s.refuse .errIdle) ∧ s.tx.phase = .idle) ∨
    (execTxd b s = .next (txByte b s) ∧ s.tx.phase = .data ∧
      ∃ tx bytes, txByte b s = (s.setTx tx).answerOk bytes) := by
  unfold execTxd
  cases h : s.tx.phase
  case idle => simp
  case data =>
    refine .inr ⟨by simp, rfl, ?_⟩
    unfold txByte; dsimp only; split_ifs
    · exact ⟨_, _, rfl⟩
    · exact ⟨_, _, rfl⟩

/-- Every instruction answers a next state that has a result, and writes neither the configuration nor the words to
come. -/
theorem exec_next (i : Instr) (s : State) :
    ∃ t r, exec i s = .next t ∧ t.result = some r ∧ t.cfg = s.cfg ∧ t.input = s.input := by
  cases i with
  | nop => exact ⟨_, _, rfl, rfl, rfl, rfl⟩
  | rxb b =>
    refine ⟨rxByte b s, ?_⟩
    rcases rxByte_cases b s with ⟨rx, h⟩ | ⟨c, h, -⟩ | ⟨h, -⟩ <;> exact ⟨_, rfl, by rw [h]; rfl, by rw [h]; rfl, by rw [h]; rfl⟩
  | rxa => exact ⟨_, _, rfl, rfl, rfl, rfl⟩
  | txs ctr len =>
    rcases execTxs_cases ctr len s with ⟨h, -⟩ | ⟨h, -⟩ | ⟨h, -, -, tx, bytes, h'⟩
    · exact ⟨_, _, h, rfl, rfl, rfl⟩
    · exact ⟨_, _, h, rfl, rfl, rfl⟩
    · rw [h'] at h; exact ⟨_, _, h, rfl, rfl, rfl⟩
  | txd b =>
    rcases execTxd_cases b s with ⟨h, -⟩ | ⟨h, -, tx, bytes, h'⟩
    · exact ⟨_, _, h, rfl, rfl, rfl⟩
    · rw [h'] at h; exact ⟨_, _, h, rfl, rfl, rfl⟩
  | txa => exact ⟨_, _, rfl, rfl, rfl, rfl⟩
  | rst => exact ⟨_, _, rfl, rfl, rfl, rfl⟩

/-! ### What no meaning looks at -/

/-- A state with other words to come and another last result. -/
def State.withEnv (s : State) (ws : List Word) (r : Option Result) : State := (s.setInput ws).setResult r

theorem rxByte_withEnv (b : Byte) (s : State) (ws : List Word) (r : Option Result) :
    rxByte b (s.withEnv ws r) = (rxByte b s).setInput ws := by
  obtain ⟨cfg, ⟨phase, ctr, len, idx, sum, buf⟩, tx, input, result⟩ := s
  show rxByte b ⟨cfg, ⟨phase, ctr, len, idx, sum, buf⟩, tx, ws, r⟩ = _
  cases phase <;> dsimp only [rxByte]
  case hunt => unfold rxHunt; dsimp only; split_ifs <;> rfl
  case ctr => rfl
  case len => unfold rxLen; dsimp only; split_ifs <;> rfl
  case data => rfl
  case csum => unfold rxCsum; dsimp only; split_ifs <;> rfl

theorem execTxs_withEnv (ctr : Byte) (len : Half) (s : State) (ws : List Word) (r : Option Result) :
    ∃ t, execTxs ctr len s = .next t ∧ execTxs ctr len (s.withEnv ws r) = .next (t.setInput ws) := by
  obtain ⟨cfg, rx, ⟨phase, rem, sum⟩, input, result⟩ := s
  show ∃ t, _ ∧ execTxs ctr len ⟨cfg, rx, ⟨phase, rem, sum⟩, ws, r⟩ = _
  unfold execTxs txStart; dsimp only
  split_ifs <;> exact ⟨_, rfl, rfl⟩

theorem execTxd_withEnv (b : Byte) (s : State) (ws : List Word) (r : Option Result) :
    ∃ t, execTxd b s = .next t ∧ execTxd b (s.withEnv ws r) = .next (t.setInput ws) := by
  obtain ⟨cfg, rx, ⟨phase, rem, sum⟩, input, result⟩ := s
  show ∃ t, _ ∧ execTxd b ⟨cfg, rx, ⟨phase, rem, sum⟩, ws, r⟩ = _
  unfold execTxd txByte; dsimp only
  split_ifs <;> exact ⟨_, rfl, rfl⟩

/-- The outcome of an instruction does not depend on the words to come nor on the last result. -/
theorem exec_withEnv (i : Instr) (s : State) (ws : List Word) (r : Option Result) :
    ∃ t, exec i s = .next t ∧ exec i (s.withEnv ws r) = .next (t.setInput ws) := by
  cases i with
  | nop => exact ⟨_, rfl, rfl⟩
  | rxb b => exact ⟨_, rfl, congrArg _ (rxByte_withEnv b s ws r)⟩
  | rxa => exact ⟨_, rfl, rfl⟩
  | txs ctr len => exact execTxs_withEnv ctr len s ws r
  | txd b => exact execTxd_withEnv b s ws r
  | txa => exact ⟨_, rfl, rfl⟩
  | rst => exact ⟨_, rfl, rfl⟩

/-- The outcome of a word does not depend on the words to come nor on the last result. -/
theorem runWord_withEnv {w : Word} {s t : State} (h : runWord w s = .next t) (ws : List Word) (r : Option Result) :
    runWord w (s.withEnv ws r) = .next (t.setInput ws) := by
  unfold runWord at h ⊢
  cases hd : decode w with
  | illegal e => rw [hd] at h; cases h; rfl
  | instr i =>
    rw [hd] at h
    obtain ⟨u, hu, hu'⟩ := exec_withEnv i s ws r
    have := Host.Outcome.next.inj (h.symm.trans hu)
    rw [this]; exact hu'

/-- Every word answers a next state that has a result, and writes neither the configuration nor the words to come. -/
theorem runWord_next (w : Word) (s : State) :
    ∃ t r, runWord w s = .next t ∧ t.result = some r ∧ t.cfg = s.cfg ∧ t.input = s.input := by
  unfold runWord
  cases decode w with
  | illegal e => exact ⟨_, _, rfl, rfl, rfl, rfl⟩
  | instr i => exact exec_next i s

/-- A step takes the next word and runs it. -/
theorem step_cons {s : State} {w : Word} {ws : List Word} (h : s.input = w :: ws) :
    step s = runWord w (s.setInput ws) := by simp [step, takeWord_cons s w ws h]

theorem step_nil {s : State} (h : s.input = []) : step s = .next s.noOperation := by simp [step, takeWord_nil s h]

end Sys2Proof.Machine
end

