-- ==== Sys2Proof/Laws/LenReg.lean ====
section
/-! SUPPORT. The registers of 8·`LEN_BYTES` bits: their width is never changed, a number that fits reads back, and
counting up and down is writing the next number. -/

namespace Sys2Proof.Machine

@[simp] theorem LenReg.width_succ (r : LenReg) : r.succ.width = r.width := by cases r <;> rfl

@[simp] theorem LenReg.width_pred (r : LenReg) : r.pred.width = r.width := by cases r <;> rfl

variable (cfg : Config)

@[simp] theorem width_lenReg (n : Nat) : (lenReg cfg n).width = 8 * lenWidth cfg := by
  unfold lenReg lenWidth
  cases cfg.lenBytes <;> rfl

/-- A register holds what is written to it modulo 2^(8·`LEN_BYTES`). -/
theorem toNat_lenReg (n : Nat) : (lenReg cfg n).toNat = n % 2 ^ (8 * lenWidth cfg) := by
  unfold lenReg lenWidth
  cases cfg.lenBytes <;> simp [LenReg.toNat]

@[simp] theorem toNat_lenReg_zero : (lenReg cfg 0).toNat = 0 := by simp [toNat_lenReg]

/-- A number that fits reads back. -/
theorem toNat_lenReg_of_lt {n : Nat} (h : n < 2 ^ (8 * lenWidth cfg)) : (lenReg cfg n).toNat = n := by
  rw [toNat_lenReg, Nat.mod_eq_of_lt h]

/-- A register of the configuration's width is what writing its number gives. -/
theorem lenReg_toNat {r : LenReg} (h : r.width = 8 * lenWidth cfg) : lenReg cfg r.toNat = r := by
  unfold lenWidth at h
  unfold lenReg
  cases hb : cfg.lenBytes <;> cases r <;> simp_all [LenReg.width, LenReg.toNat]

theorem succ_lenReg (n : Nat) : (lenReg cfg n).succ = lenReg cfg (n + 1) := by
  unfold lenReg
  cases cfg.lenBytes <;> simp [LenReg.succ, BitVec.ofNat_add]

theorem pred_lenReg (n : Nat) : (lenReg cfg (n + 1)).pred = lenReg cfg n := by
  unfold lenReg
  cases cfg.lenBytes <;> simp [LenReg.pred, BitVec.ofNat_add]

/-- A register counted down reads 0 exactly when it held 1. -/
theorem LenReg.toNat_pred_eq_zero_iff (r : LenReg) : r.pred.toNat = 0 ↔ r.toNat = 1 := by
  cases r with
  | one v => simp only [LenReg.pred, LenReg.toNat, BitVec.toNat_sub]; have := v.isLt; simp; omega
  | two v => simp only [LenReg.pred, LenReg.toNat, BitVec.toNat_sub]; have := v.isLt; simp; omega

end Sys2Proof.Machine
end

