-- ==== Sys2Proof/Laws/Memory.lean ====
section
/-! SUPPORT. The laws of the payload buffer: its canonical form is kept, a read after a write, and what the bytes of a
list look like in it. -/

namespace Sys2Proof.Machine

/-- A write puts its byte at its index. -/
@[simp] theorem Memory.get?_put_same (m : Memory) (a : Nat) (b : Byte) : Memory.get? (Memory.put m a b) a = some b := by
  induction m with
  | nil => simp [Memory.put, Memory.get?]
  | cons c m ih =>
    obtain ⟨k, v⟩ := c
    simp only [Memory.put]
    split_ifs with h₁ h₂
    · simp [Memory.get?]
    · simp [Memory.get?]
    · simp [Memory.get?, h₂, ih]

/-- A write leaves every other index. -/
theorem Memory.get?_put_other (m : Memory) {a a' : Nat} (b : Byte) (h : a' ≠ a) :
    Memory.get? (Memory.put m a b) a' = Memory.get? m a' := by
  induction m with
  | nil => simp [Memory.put, Memory.get?, h]
  | cons c m ih =>
    obtain ⟨k, v⟩ := c
    simp only [Memory.put]
    split_ifs with h₁ h₂
    · simp [Memory.get?, h]
    · subst h₂; simp [Memory.get?, h]
    · simp [Memory.get?, ih]

/-- The indices of a memory after a write: the written one and those before. -/
theorem Memory.mem_put {m : Memory} {a : Nat} {b : Byte} {c : Host.Cell} (h : c ∈ Memory.put m a b) :
    c = (a, b) ∨ c ∈ m := by
  induction m with
  | nil => simpa [Memory.put] using h
  | cons d m ih =>
    obtain ⟨k, v⟩ := d
    simp only [Memory.put] at h
    split_ifs at h with h₁ h₂
    · simpa using h
    · simp only [List.mem_cons] at h ⊢; tauto
    · simp only [List.mem_cons] at h ⊢
      rcases h with h | h
      · tauto
      · rcases ih h with h | h <;> tauto

/-- A write keeps the canonical form. -/
theorem Memory.wf_put {m : Memory} (hm : Memory.wf m) (a : Nat) (b : Byte) : Memory.wf (Memory.put m a b) := by
  induction m with
  | nil => simp [Memory.put]
  | cons d m ih =>
    obtain ⟨k, v⟩ := d
    simp only [Memory.wf, List.pairwise_cons] at hm
    simp only [Memory.put]
    split_ifs with h₁ h₂
    · simp only [Memory.wf, List.pairwise_cons, List.mem_cons]
      refine ⟨?_, hm⟩
      rintro c (rfl | hc)
      · exact h₁
      · exact lt_trans h₁ (hm.1 c hc)
    · subst h₂; simp only [Memory.wf, List.pairwise_cons]; exact hm
    · simp only [Memory.wf, List.pairwise_cons]
      refine ⟨fun c hc => ?_, ih hm.2⟩
      rcases Memory.mem_put hc with rfl | hc
      · exact lt_of_le_of_ne (not_lt.mp h₁) (Ne.symm h₂)
      · exact hm.1 c hc

/-- `MemWrite` keeps the canonical form. -/
theorem memWrite_wf (cfg : Config) {m : Memory} (hm : Memory.wf m) (a : Nat) (b : Byte) :
    Memory.wf (memWrite cfg m a b) := by
  unfold memWrite
  split_ifs
  · exact Memory.wf_put hm a b
  · exact hm

/-- `MemWrite` lists no index outside `RX_BUF`. -/
theorem memWrite_inRange (cfg : Config) {m : Memory} (hm : ∀ c ∈ m, c.1 < cfg.maxPayload) (a : Nat) (b : Byte) :
    ∀ c ∈ memWrite cfg m a b, c.1 < cfg.maxPayload := by
  unfold memWrite
  split_ifs with h
  · intro c hc
    rcases Memory.mem_put hc with rfl | hc
    · exact h
    · exact hm c hc
  · exact hm

/-- A read after a write in range gives the byte written. -/
theorem memRead_memWrite_same (cfg : Config) (m : Memory) {a : Nat} (b : Byte) (h : a < cfg.maxPayload) :
    memRead cfg (memWrite cfg m a b) a = b := by
  simp [memRead, memWrite, h]

/-- A write leaves what every other index reads as. -/
theorem memRead_memWrite_other (cfg : Config) (m : Memory) {a a' : Nat} (b : Byte) (h : a' ≠ a) :
    memRead cfg (memWrite cfg m a b) a' = memRead cfg m a' := by
  unfold memRead memWrite
  split_ifs <;> simp [Memory.get?_put_other _ _ h]

/-! ### The bytes of a list -/

theorem Memory.get?_ofBytesFrom (l : List Byte) (k a : Nat) :
    Memory.get? (Memory.ofBytesFrom k l) a = if a < k then none else l[a - k]? := by
  induction l generalizing k with
  | nil => simp [Memory.ofBytesFrom, Memory.get?]
  | cons b l ih =>
    simp only [Memory.ofBytesFrom, Memory.get?, ih]
    rcases lt_trichotomy a k with h | h | h
    · simp [h, h.ne, Nat.lt_succ_of_lt h]
    · subst h; simp
    · obtain ⟨d, rfl⟩ : ∃ d, a = k + 1 + d := ⟨a - (k + 1), by omega⟩
      simp [show ¬ k + 1 + d < k + 1 by omega, show ¬ k + 1 + d < k by omega, show k + 1 + d ≠ k by omega,
        show k + 1 + d - k = d + 1 by omega]

/-- The buffer that holds a list has its elements at their positions. -/
@[simp] theorem Memory.get?_ofBytes (l : List Byte) (a : Nat) : Memory.get? (Memory.ofBytes l) a = l[a]? := by
  simp [Memory.ofBytes, Memory.get?_ofBytesFrom]

theorem Memory.put_ofBytesFrom (l : List Byte) (k : Nat) (b : Byte) :
    Memory.put (Memory.ofBytesFrom k l) (k + l.length) b = Memory.ofBytesFrom k (l ++ [b]) := by
  induction l generalizing k with
  | nil => simp [Memory.ofBytesFrom, Memory.put]
  | cons c l ih =>
    have := ih (k + 1)
    simp only [List.length_cons, Memory.ofBytesFrom, Memory.put, List.cons_append]
    rw [if_neg (by omega), if_neg (by omega), ← ih (k + 1)]
    congr 1; congr 1; omega

/-- Writing at the fill level appends (R32). -/
theorem Memory.put_ofBytes (l : List Byte) (b : Byte) :
    Memory.put (Memory.ofBytes l) l.length b = Memory.ofBytes (l ++ [b]) := by
  simpa [Memory.ofBytes] using Memory.put_ofBytesFrom l 0 b

theorem Memory.fst_ge_of_mem_ofBytesFrom {l : List Byte} {k : Nat} {c : Host.Cell} (h : c ∈ Memory.ofBytesFrom k l) :
    k ≤ c.1 ∧ c.1 < k + l.length := by
  induction l generalizing k with
  | nil => simp [Memory.ofBytesFrom] at h
  | cons b l ih =>
    simp only [Memory.ofBytesFrom, List.mem_cons] at h
    rcases h with rfl | h
    · simp
    · have := ih h; simp only [List.length_cons]; omega

/-- The buffer that holds a list is in canonical form. -/
theorem Memory.wf_ofBytesFrom (l : List Byte) (k : Nat) : Memory.wf (Memory.ofBytesFrom k l) := by
  induction l generalizing k with
  | nil => simp [Memory.ofBytesFrom]
  | cons b l ih =>
    simp only [Memory.ofBytesFrom, Memory.wf, List.pairwise_cons]
    exact ⟨fun c hc => by have := Memory.fst_ge_of_mem_ofBytesFrom hc; omega, ih (k + 1)⟩

/-- `MemWrite` at the fill level appends, in range (R32). -/
theorem memWrite_ofBytes (cfg : Config) (l : List Byte) (b : Byte) (h : l.length < cfg.maxPayload) :
    memWrite cfg (Memory.ofBytes l) l.length b = Memory.ofBytes (l ++ [b]) := by
  rw [memWrite, if_pos h, Memory.put_ofBytes]

/-- Reading the whole of a list in range gives the list back (R32, R51). -/
theorem memReadUpTo_ofBytes (cfg : Config) (l : List Byte) (h : l.length ≤ cfg.maxPayload) :
    memReadUpTo cfg (Memory.ofBytes l) l.length = l := by
  apply List.ext_getElem
  · simp [memReadUpTo]
  · intro i h₁ h₂
    simp [memReadUpTo, memRead, show i < cfg.maxPayload by omega, h₂]

end Sys2Proof.Machine
end

