-- ==== Sys2Proof/Laws/Operands.lean ====
section
/-! SUPPORT. Sizes: of the length field, of a frame, and of what a well-formed configuration allows. -/

namespace Sys2Proof.Machine

variable (cfg : Config)

theorem lenWidth_pos : 1 ≤ lenWidth cfg := by unfold lenWidth; split <;> omega

theorem lenWidth_le : lenWidth cfg ≤ 2 := by unfold lenWidth; split <;> omega

theorem length_lenbytes (n : Nat) : (lenbytes cfg n).length = lenWidth cfg := by
  unfold lenbytes lenWidth
  cases cfg.lenBytes <;> cases cfg.lenEndian <;> rfl

theorem length_frameBytes (payload : List Byte) (ctr : Byte) :
    (frameBytes cfg payload ctr).length = frameSize cfg payload.length := by
  simp [frameBytes, coveredBytes, length_lenbytes, frameSize, hdr]
  omega

/-- One more byte of the length field goes into the length register by `mergeLen`. -/
theorem lenpartial_append_one (l : List Byte) (b : Byte) :
    lenpartial cfg (l ++ [b]) = mergeLen cfg (lenpartial cfg l) l.length b := by
  have h : ∀ (l : List Byte) (x k : Nat),
      mergeLens cfg x k (l ++ [b]) = mergeLen cfg (mergeLens cfg x k l) (k + l.length) b := by
    intro l
    induction l with
    | nil => intro x k; rfl
    | cons a l ih => intro x k; simp [mergeLens, ih, Nat.add_assoc, Nat.add_comm 1]
  simpa [lenpartial] using h l 0 0

variable {cfg}

theorem maxPayload_lt_of_wf (h : cfg.wf = true) : cfg.maxPayload < 2 ^ (8 * lenWidth cfg) := by
  unfold Config.wf at h
  unfold lenWidth
  cases hb : cfg.lenBytes <;> simp [hb] at h ⊢ <;> omega

theorem frameEncode_eq_some_iff {payload f : List Byte} {ctr : Byte} :
    frameEncode cfg payload ctr = some f ↔ payload.length ≤ cfg.maxPayload ∧ f = frameBytes cfg payload ctr := by
  unfold frameEncode
  split_ifs with h <;> simp [h, eq_comm]

end Sys2Proof.Machine
end

