-- ==== Sys2Proof/Laws/PerInstr.lean ====
section
/-! SUPPORT. What holds of every instruction as syntax, one lemma per constructor. -/

namespace Sys2Proof.Laws.EncodeMatchesRow

/-- The word of an instruction has the fixed bits of its row of the opcode table (R80). -/
def Statement (i : Instr) : Prop :=
  ∃ row ∈ opcodeTable, row.1 = mnemonic i ∧ encode i &&& row.2.2 = row.2.1

theorem nop : Statement .nop := ⟨("NOP", 0x00000000, 0xFFFFFFFF), by decide, rfl, by decide⟩

theorem rxb (b : Byte) : Statement (.rxb b) := by
  refine ⟨("RXB", 0x10000000, 0xFFFFFF00), by decide, rfl, ?_⟩
  have h : ((0x100000 : BitVec 24) ++ b) &&& ((0xFFFFFF : BitVec 24) ++ (0 : Byte)) = (0x100000 : BitVec 24) ++ (0 : Byte) := by
    rw [BitVec.and_append]
    simp
  exact h

theorem rxa : Statement .rxa := ⟨("RXA", 0x20000000, 0xFFFFFFFF), by decide, rfl, by decide⟩

theorem txs (ctr : Byte) (len : Half) : Statement (.txs ctr len) := by
  refine ⟨("TXS", 0x30000000, 0xFF000000), by decide, rfl, ?_⟩
  have h : ((0x30 : Byte) ++ ctr ++ len) &&& ((0xFF : Byte) ++ (0 : Byte) ++ (0 : Half)) =
      (0x30 : Byte) ++ (0 : Byte) ++ (0 : Half) := by
    rw [BitVec.and_append, BitVec.and_append]
    simp
  exact h

theorem txd (b : Byte) : Statement (.txd b) := by
  refine ⟨("TXD", 0x40000000, 0xFFFFFF00), by decide, rfl, ?_⟩
  have h : ((0x400000 : BitVec 24) ++ b) &&& ((0xFFFFFF : BitVec 24) ++ (0 : Byte)) = (0x400000 : BitVec 24) ++ (0 : Byte) := by
    rw [BitVec.and_append]
    simp
  exact h

theorem txa : Statement .txa := ⟨("TXA", 0x50000000, 0xFFFFFFFF), by decide, rfl, by decide⟩

theorem rst : Statement .rst := ⟨("RST", 0x60000000, 0xFFFFFFFF), by decide, rfl, by decide⟩

end Sys2Proof.Laws.EncodeMatchesRow
end

