-- ==== Sys2Proof/Laws/Run.lean ====
section
/-! SUPPORT. A run as two plain recursions over its words: its results, and its final state. -/

namespace Sys2Proof.Machine

/-- The state after one word. -/
def afterWord (w : Word) (s : State) : State :=
  match runWord w s with
  | .next t => t
  | .fault _ => s
  | .refused _ => s

theorem runWord_eq (w : Word) (s : State) : runWord w s = .next (afterWord w s) := by
  obtain ⟨t, -, h, -⟩ := runWord_next w s
  simp [afterWord, h]

/-- The results of a run. -/
def resultsOf : List Word → State → List Result
  | [], _ => []
  | w :: ws, s => (afterWord w s).result.toList ++ resultsOf ws (afterWord w s)

/-- The state after a run, with the words to come it started with. -/
def finalOf : List Word → State → State
  | [], s => s
  | w :: ws, s => finalOf ws (afterWord w s)

theorem afterWord_setInput (w : Word) (s : State) (ws : List Word) :
    afterWord w (s.setInput ws) = (afterWord w s).setInput ws := by
  have h := runWord_withEnv (runWord_eq w s) ws s.result
  have e : s.withEnv ws s.result = s.setInput ws := rfl
  rw [e, runWord_eq] at h
  exact Host.Outcome.next.inj h

theorem resultsOf_setInput (ws : List Word) (s : State) (vs : List Word) :
    resultsOf ws (s.setInput vs) = resultsOf ws s := by
  induction ws generalizing s with
  | nil => rfl
  | cons w ws ih => simp [resultsOf, afterWord_setInput, ih]

theorem finalOf_setInput (ws : List Word) (s : State) (vs : List Word) :
    finalOf ws (s.setInput vs) = (finalOf ws s).setInput vs := by
  induction ws generalizing s with
  | nil => rfl
  | cons w ws ih => simp [finalOf, afterWord_setInput, ih]

/-- A run never stops, and answers the results and the final state of the two recursions. -/
theorem run_eq (ws : List Word) (s : State) : run ws s = some ⟨resultsOf ws s, (finalOf ws s).setInput []⟩ := by
  unfold run
  induction ws generalizing s with
  | nil => rfl
  | cons w ws ih =>
    have h : step (s.setInput (w :: ws)) = .next ((afterWord w s).setInput ws) := by
      rw [step_cons (ws := ws) rfl]
      have e : (s.setInput (w :: ws)).setInput ws = s.setInput ws := rfl
      rw [e, runWord_eq, afterWord_setInput]
    simp only [List.length_cons, collect, h]
    rw [ih]
    simp [resultsOf, finalOf]

@[simp] theorem resultsOf_append (ws vs : List Word) (s : State) :
    resultsOf (ws ++ vs) s = resultsOf ws s ++ resultsOf vs (finalOf ws s) := by
  induction ws generalizing s with
  | nil => rfl
  | cons w ws ih => simp [resultsOf, finalOf, ih]

@[simp] theorem finalOf_append (ws vs : List Word) (s : State) :
    finalOf (ws ++ vs) s = finalOf vs (finalOf ws s) := by
  induction ws generalizing s with
  | nil => rfl
  | cons w ws ih => simp [finalOf, ih]

@[simp] theorem afterWord_cfg (w : Word) (s : State) : (afterWord w s).cfg = s.cfg := by
  obtain ⟨t, r, h, -, hc, -⟩ := runWord_next w s
  simpa [afterWord, h] using hc

@[simp] theorem finalOf_cfg (ws : List Word) (s : State) : (finalOf ws s).cfg = s.cfg := by
  induction ws generalizing s with
  | nil => rfl
  | cons w ws ih => simp [finalOf, ih]

/-- Each word gives exactly one result. -/
theorem length_resultsOf (ws : List Word) (s : State) : (resultsOf ws s).length = ws.length := by
  induction ws generalizing s with
  | nil => rfl
  | cons w ws ih =>
    obtain ⟨t, r, h, hr, -⟩ := runWord_next w s
    have : (afterWord w s).result = some r := by simp [afterWord, h, hr]
    simp [resultsOf, ih, this, Nat.add_comm]

end Sys2Proof.Machine
end

