-- ==== Sys2Proof/Tests/Slice0.lean ====
section
/-! SUPPORT. Tests: the well-formedness checks, words written out from the encodings of the spec (R78 to R85), the
spec's own vectors (95_test_vectors.md, named by their ids), and one witness for every statement with hypotheses. -/

namespace Sys2Proof.Tests

open Sys2Proof Sys2Proof.Machine

/-! ### Helpers -/

/-- A state between two operations. -/
def at_ (cfg : Config) (rx : RxHalf) (tx : TxHalf) : State := ⟨cfg, rx, tx, [], none⟩

/-- The state one step gives when the environment presents `w`. -/
def after (w : Word) (s : State) : Option State :=
  match step (s.present w) with
  | .next t => some t
  | .fault _ => none
  | .refused _ => none

/-- A receive half in mid-header with a frame open (Y1). -/
def midLen : RxHalf := ⟨.len, 0x07, .one 0, .one 0, 0x07, []⟩

/-- The same with a two-byte length field, in CFG3. -/
def midLenTwo : RxHalf := ⟨.len, 0x07, .two 0, .two 0, 0x07, []⟩

/-- A receive half in its payload (X10). -/
def midData : RxHalf := ⟨.data, 0x00, .one 4, .one 3, 0x0A, Memory.ofBytes [0x01, 0x02, 0x03]⟩

/-- A receive half before its checksum (X11). -/
def midCsum : RxHalf := ⟨.csum, 0x00, .one 4, .one 4, 0x0E, Memory.ofBytes [0x01, 0x02, 0x03, 0x04]⟩

/-- A transmit half with a frame open (T11). -/
def openTx : TxHalf := ⟨.data, .one 1, 0x0A⟩

/-- Both halves in mid-frame, in CFG0 (Y1). -/
def mid : State := at_ .cfg0 midLen ⟨.data, .one 1, 0xAD⟩

/-! ### Well-formedness: an ill-formed term for each check -/

theorem test_wf_config : [Config.cfg0, .cfg1, .cfg2, .cfg3].all Config.wf := by decide
theorem test_wf_maxPayload_one : Config.wf ⟨0x5A, .one, .big, 256, .sum8n⟩ = false := by decide
theorem test_wf_maxPayload_two : Config.wf ⟨0x5A, .two, .big, 65536, .sum8n⟩ = false := by decide
theorem test_wf_lines :
    [AsmLine.nop, .rxb 255, .rxa, .txs 255 65535, .txd 255, .txa, .rst, .word 4294967295, .send 255 [255], .feed [255]].all
      AsmLine.wf := by decide
theorem test_wf_rxb : AsmLine.wf (.rxb 256) = false := by decide
theorem test_wf_txs_ctr : AsmLine.wf (.txs 256 0) = false := by decide
theorem test_wf_txs_len : AsmLine.wf (.txs 0 65536) = false := by decide
theorem test_wf_txd : AsmLine.wf (.txd 256) = false := by decide
theorem test_wf_word : AsmLine.wf (.word 4294967296) = false := by decide
theorem test_wf_send_ctr : AsmLine.wf (.send 256 []) = false := by decide
theorem test_wf_send_length : AsmLine.wf (.send 0 (List.replicate 65536 0)) = false := by
  have h : ∀ l : List Nat, l.length = 65536 → AsmLine.wf (.send 0 l) = false := by
    intro l h
    simp [AsmLine.wf, h]
  exact h _ List.length_replicate
theorem test_wf_send_byte : AsmLine.wf (.send 0 [256]) = false := by decide
theorem test_wf_feed_byte : AsmLine.wf (.feed [0, 256]) = false := by decide

/-! ### Decoding: words written out bit by bit from the formats (R78, R81 to R83) -/

theorem test_decode_nop : decode 0b00000000000000000000000000000000 = .instr .nop := by decide
theorem test_decode_rxb : decode 0b00010000000000000000000001011010 = .instr (.rxb 0x5A) := by decide
theorem test_decode_rxa : decode 0b00100000000000000000000000000000 = .instr .rxa := by decide
theorem test_decode_txs : decode 0b00110000001010100000000100101100 = .instr (.txs 0x2A 300) := by decide
theorem test_decode_txd : decode 0b01000000000000000000000011110010 = .instr (.txd 0xF2) := by decide
theorem test_decode_txa : decode 0b01010000000000000000000000000000 = .instr .txa := by decide
theorem test_decode_rst : decode 0b01100000000000000000000000000000 = .instr .rst := by decide
/-- Y5 and Y6: a reserved operation code. -/
theorem test_decode_reserved_op :
    decode 0xFFFFFFFF = .illegal (.reservedOp 15) ∧ decode 0x80000000 = .illegal (.reservedOp 8) := by decide
/-- Y7 to Y15: one reserved bit. -/
theorem test_decode_reserved_bits :
    [0x00000001, 0x08000000, 0x10000100, 0x1800005A, 0x20000001, 0x31010002, 0x40000100, 0x50000010, 0x60000001].map decode =
      [0, 0, 1, 1, 2, 3, 4, 5, 6].map fun op => .illegal (.reservedBits op) := by decide
theorem test_encode_words :
    [Instr.nop, .rxb 255, .rxa, .txs 0xFF 60, .txd 0x00, .txa, .rst].map encode =
      [0x00000000, 0x100000FF, 0x20000000, 0x30FF003C, 0x40000000, 0x50000000, 0x60000000] := by decide
theorem test_decodeTableWord :
    decodeTableWord 32 0x302A0003 = some (.txs 0x2A 3) ∧ decodeTableWord 32 0x70000000 = none := by decide
/-- The first step after reset runs the word placed there (T1). -/
theorem test_withFetchWord :
    (match step (State.reset.withFetchWord 32 0x30000004) with
      | .next t => decide (t.tx = ⟨.data, .one 4, 0x04⟩ ∧ t.result = some ⟨.ok, .none, [0x5A, 0x00, 0x04]⟩)
      | .fault _ => false
      | .refused _ => false) = true := by decide

/-! ### One step of each operation (95_test_vectors.md, parts 2.6 to 2.8) -/

/-- Y1 -/
theorem test_nop_unchanged : after 0x00000000 mid = some { mid with result := some ⟨.ok, .none, []⟩ } := by decide
/-- X12 -/
theorem test_rxb_wrong_checksum : after 0x100000F3 (at_ .cfg0 midCsum (canonicalIdle .cfg0)) =
    some { State.reset with result := some ⟨.ok, .corrupt .checksum, []⟩ } := by decide
/-- X27: the declared length 1025 is rejected on its second byte. -/
theorem test_rxb_length_range :
    after 0x10000001 (at_ .cfg2 ⟨.len, 0x00, .two 4, .two 1, 0x1C, []⟩ (canonicalIdle .cfg2)) =
      some { State.resetOf .cfg2 with result := some ⟨.ok, .corrupt .lenRange, []⟩ } := by decide
/-- X18 -/
theorem test_rxa_discards : after 0x20000000 (at_ .cfg0 midData (canonicalIdle .cfg0)) =
    some { State.reset with result := some ⟨.ok, .none, []⟩ } := by decide
/-- T21: a two-byte little-endian length. -/
theorem test_txs_little_endian : after 0x3001012C (State.resetOf .cfg3) =
    some ⟨.cfg3, canonicalHunt .cfg3, ⟨.data, .two 300, 0x2C⟩, [], some ⟨.ok, .none, [0x5A, 0x01, 0x2C, 0x01]⟩⟩ := by decide
/-- T8: `ERR_BUSY` before `ERR_LEN`. -/
theorem test_txs_busy_first : (after 0x30020100 (at_ .cfg0 midLen ⟨.data, .one 2, 0x03⟩)).map (·.result) =
    some (some ⟨.errBusy, .none, []⟩) := by decide
/-- T11: the last payload byte brings the checksum with it. -/
theorem test_txd_last : after 0x40000004 (at_ .cfg0 midLen openTx) =
    some ⟨.cfg0, midLen, canonicalIdle .cfg0, [], some ⟨.ok, .none, [0x04, 0xF2]⟩⟩ := by decide
/-- T9 -/
theorem test_txd_idle : (after 0x40000011 State.reset).map (·.result) = some (some ⟨.errIdle, .none, []⟩) := by decide
/-- Y17 -/
theorem test_txa_abandons : after 0x50000000 mid =
    some { mid with tx := canonicalIdle .cfg0, result := some ⟨.ok, .none, []⟩ } := by decide
/-- Y2 -/
theorem test_rst_both_halves : after 0x60000000 mid =
    some { State.reset with result := some ⟨.ok, .none, []⟩ } := by decide
/-- Y4 -/
theorem test_illegal_word : after 0x70000000 mid = some { mid with result := some ⟨.errIllegal, .none, []⟩ } := by decide

/-- R22 and R23: 8-bit registers in CFG0, 16-bit ones in CFG2, after reset. -/
theorem test_reset_widths :
    State.reset.rx.len = .one 0 ∧ State.reset.rx.idx = .one 0 ∧ State.reset.tx.rem = .one 0 ∧
    (State.resetOf .cfg2).rx.len = .two 0 ∧ (State.resetOf .cfg2).rx.idx = .two 0 ∧ (State.resetOf .cfg2).tx.rem = .two 0 := by
  decide
/-- Nothing of a length byte is lost or added in CFG0's 8-bit register (X7). -/
theorem test_rxb_length_255 : (after 0x100000FF (at_ .cfg0 ⟨.len, 0x00, .one 0, .one 0, 0x00, []⟩ openTx)).map (·.rx) =
    some ⟨.data, 0x00, .one 255, .one 0, 0xFF, []⟩ := by decide

/-! ### Functions on byte lists, status, text (95_test_vectors.md, parts 2.1 to 2.4 and 2.8) -/

theorem test_crc8_step : Checksum.step .crc8 0xCD 0xDE = 0x79 := by decide
theorem test_sum8n : Checksum.of .sum8n [0xFF, 0x01] = 0x00 := by decide
theorem test_lenbytes :
    lenbytes .cfg2 300 = [0x01, 0x2C] ∧ lenbytes .cfg3 300 = [0x2C, 0x01] ∧
    lenval .cfg2 [0x04, 0x01] = some 1025 ∧ lenpartial .cfg3 [0x2C] = 44 := by decide
/-- E4 -/
theorem test_encode : frameEncode .cfg3 [0x5A, 0x5A] 0x5A = some [0x5A, 0x5A, 0x02, 0x00, 0x5A, 0x5A, 0x58] := by decide
/-- D2 and D12 -/
theorem test_decode_frames :
    frameDecode .cfg0 [0x00, 0xFF, 0x5A, 0x00, 0x04, 0x01, 0x02, 0x03, 0x04, 0xF2] = .frame 0x00 [0x01, 0x02, 0x03, 0x04] ∧
    frameDecode .cfg0 [0x5A, 0x00, 0x00, 0x00, 0x5A, 0x00, 0x00, 0x00] = .corrupt := by decide
/-- R39: `RXPH` = 2 and `TXBUSY` = 1. -/
theorem test_status : status mid = 0b00001010 := by decide
/-- The buffer after reset is in its canonical form, and lists nothing. -/
theorem test_reset_buffer : Memory.wf State.reset.rx.buf ∧ State.reset.rx.buf = [] := by decide
/-- R77: the longest frame of CFG0 has 259 bytes. -/
theorem test_maxFrame : maxFrame .cfg0 = 259 := by decide
theorem test_assemble_txs :
    assembleLine ['t', 'x', 's', ' ', '0', 'x', '0', '9', ',', ' ', '2', '5', '6'] = some [0x30090100] := by decide
theorem test_assemble_feed :
    assembleLine ['f', 'e', 'e', 'd', ' ', '[', '0', 'x', '5', 'A', ',', '7', ']', ';', '!'] = some [0x1000005A, 0x10000007] := by
  decide
theorem test_assemble_rejects : assembleLine ['r', 'x', 'b', ' ', '2', '5', '6'] = none := by decide

/-! ### Witnesses: the hypotheses of each statement, and of each of its clauses, are met -/

/-- A receive half in `DATA` with one byte to come, in CFG0: the invariant's states are not only `HUNT`. -/
theorem midData_inv : (at_ .cfg0 midData openTx).Inv :=
  ⟨by decide, ⟨4, [0x01, 0x02, 0x03], by decide, by decide, by decide, by decide⟩,
    ⟨0x00, 4, [0x01, 0x02, 0x03], by decide, by decide, by decide, by decide⟩⟩

theorem midCsum_inv : (at_ .cfg0 midCsum openTx).Inv :=
  ⟨by decide, ⟨4, [0x01, 0x02, 0x03, 0x04], by decide, by decide, by decide⟩,
    ⟨0x00, 4, [0x01, 0x02, 0x03], by decide, by decide, by decide, by decide⟩⟩

theorem mid_inv : mid.Inv :=
  ⟨by decide, ⟨[], by decide, by decide⟩, ⟨0x01, 2, [0xAA], by decide, by decide, by decide, by decide⟩⟩

theorem reset_inv : State.reset.Inv := ⟨by decide, rfl, rfl⟩

theorem witness_ResetGivesTheTableOfValues :
    (∃ cfg, State.reset = State.resetOf cfg) ∧
      ∃ t, exec .rst mid = .next t ∧ ((∃ cfg, t = State.resetOf cfg) ∨ ∃ s0, exec .rst s0 = .next t) :=
  ⟨⟨_, rfl⟩, _, rfl, .inr ⟨mid, rfl⟩⟩

/-- One word for each disjunct, at the ends of the reserved fields. -/
theorem witness_IllegalWordsAnswerErrIllegal :
    7 ≤ (0x70000000 : Word).toNat / 2 ^ 28 ∧ 7 ≤ (0xF0000000 : Word).toNat / 2 ^ 28 ∧
    ((0x08000000 : Word).toNat / 2 ^ 28 ∈ [0, 2, 5, 6] ∧ (0x08000000 : Word).toNat % 2 ^ 28 ≠ 0) ∧
    ((0x60000001 : Word).toNat / 2 ^ 28 ∈ [0, 2, 5, 6] ∧ (0x60000001 : Word).toNat % 2 ^ 28 ≠ 0) ∧
    ((0x10000100 : Word).toNat / 2 ^ 28 ∈ [1, 4] ∧ (0x10000100 : Word).toNat / 256 % 2 ^ 20 ≠ 0) ∧
    ((0x48000000 : Word).toNat / 2 ^ 28 ∈ [1, 4] ∧ (0x48000000 : Word).toNat / 256 % 2 ^ 20 ≠ 0) ∧
    ((0x31FFFFFF : Word).toNat / 2 ^ 28 = 3 ∧ (0x31FFFFFF : Word).toNat / 2 ^ 24 % 16 ≠ 0) := by decide

/-- One word for each operation, its operands at both ends of their ranges. -/
theorem witness_LegalWordsDecodeToTheirOperation :
    (0x00000000 : Word).toNat = 0 ∧ (0x10000000 : Word).toNat = 1 * 2 ^ 28 + 0 ∧
    (0x100000FF : Word).toNat = 1 * 2 ^ 28 + 255 ∧ (0x20000000 : Word).toNat = 2 * 2 ^ 28 ∧
    (0x30000000 : Word).toNat = 3 * 2 ^ 28 + 0 * 2 ^ 16 + 0 ∧
    (0x30FFFFFF : Word).toNat = 3 * 2 ^ 28 + 255 * 2 ^ 16 + 65535 ∧
    (0x40000000 : Word).toNat = 4 * 2 ^ 28 + 0 ∧ (0x400000FF : Word).toNat = 4 * 2 ^ 28 + 255 ∧
    (0x50000000 : Word).toNat = 5 * 2 ^ 28 ∧ (0x60000000 : Word).toNat = 6 * 2 ^ 28 := by decide

theorem witness_OpcodeTableRowsAgreeWithDecode :
    (∀ row ∈ opcodeTable, row.2.1 &&& row.2.2 = row.2.1) ∧ ∀ row ∈ opcodeTable, (0x70000000 : Word) &&& row.2.2 ≠ row.2.1 := by
  decide

theorem witness_DecodeInvertsEncode : decode 0x30FFFFFF = .instr (.txs 255 65535) := by decide

theorem witness_StepRunsTheDecodedWord :
    (State.reset.present 0x1000005A).input = 0x1000005A :: [] ∧ decode 0x1000005A = .instr (.rxb 0x5A) ∧
    decode 0x70000000 = .illegal (.reservedOp 7) := by decide

theorem witness_SequencesAreFoldsOfSteps :
    ∃ t, runWord 0x1000005A (State.reset.setInput []) = .next t := ⟨_, rfl⟩

theorem witness_NoStepWritesTheConfiguration : ∃ t, step (mid.present 0x60000000) = .next t := ⟨_, rfl⟩

/-- Busy; idle with a length one too long, the longest, and none. -/
theorem witness_TxsFollowsItsRule :
    mid.tx.phase = .data ∧ (State.reset.tx.phase = .idle ∧ State.reset.cfg.maxPayload < (256 : Half).toNat) ∧
    (State.reset.tx.phase = .idle ∧ (255 : Half).toNat ≤ State.reset.cfg.maxPayload ∧ (255 : Half) ≠ 0) ∧
    ((0 : Half).toNat ≤ State.reset.cfg.maxPayload) := by decide

/-- Idle; the last byte; another byte. -/
theorem witness_TxdFollowsItsRule :
    State.reset.tx.phase = .idle ∧ (mid.tx.phase = .data ∧ mid.tx.rem.toNat = 1) ∧
    ((at_ .cfg0 midLen ⟨.data, .one 255, 0⟩).tx.phase = .data ∧ (at_ .cfg0 midLen ⟨.data, .one 255, 0⟩).tx.rem.toNat ≠ 1) := by decide

theorem witness_TxaGivesCanonicalIdle : State.reset.Inv ∧ State.reset.tx.phase = .idle := ⟨reset_inv, rfl⟩

/-- An accepted and a refused form of each operation that can be refused. -/
theorem witness_TransmitOperationsLeaveTheReceiveHalf :
    (∃ t, exec (.txs 0x11 1) State.reset = .next t) ∧ (∃ t r, exec (.txs 0x02 1) mid = .next t ∧ t.result = some r ∧ r.resp ≠ .ok) ∧
    (∃ t, exec (.txd 0x7F) mid = .next t) ∧ (∃ t r, exec (.txd 0x11) State.reset = .next t ∧ t.result = some r ∧ r.resp ≠ .ok) ∧
    ∃ t, exec .txa mid = .next t :=
  ⟨⟨_, rfl⟩, ⟨_, _, rfl, rfl, by decide⟩, ⟨_, rfl⟩, ⟨_, _, rfl, rfl, by decide⟩, ⟨_, rfl⟩⟩

/-- Each phase and each branch, the length clauses at their boundaries in CFG1 and CFG2. -/
theorem witness_RxbFollowsItsRule :
    (State.reset.rx.phase = .hunt ∧ (0x00 : Byte) ≠ State.reset.cfg.marker ∧ (0x5A : Byte) = State.reset.cfg.marker) ∧
    ({ canonicalHunt Config.cfg0 with phase := .ctr } : RxHalf).phase = .ctr ∧
    (midLenTwo.phase = .len ∧ midLenTwo.idx.toNat + 1 < lenWidth Config.cfg2) ∧
    (lenWidth Config.cfg1 ≤ midLen.idx.toNat + 1 ∧ Config.cfg1.lenEndian = .big ∧
      0x41 = (midLen.len.toNat <<< 8) ||| (0x41 : Byte).toNat ∧ Config.cfg1.maxPayload < 0x41) ∧
    (0x40 = (midLen.len.toNat <<< 8) ||| (0x40 : Byte).toNat ∧ 0x40 ≤ Config.cfg1.maxPayload ∧ 0x40 ≠ 0) ∧
    (0 = (midLen.len.toNat <<< 8) ||| (0 : Byte).toNat ∧ 0 ≤ Config.cfg1.maxPayload) ∧
    (Config.cfg3.lenEndian = .little ∧
      0x0403 = (LenReg.two 3).toNat ||| ((0x04 : Byte).toNat <<< (8 * (LenReg.two 1).toNat)) ∧
      Config.cfg3.maxPayload < 0x0403) ∧
    midData.phase = .data ∧
    (midCsum.phase = .csum ∧ Config.cfg0.ck.fin midCsum.sum = 0xF2 ∧ Config.cfg0.ck.fin midCsum.sum ≠ 0xF3) := by decide

theorem witness_PayloadAccumulatesAndIsDelivered :
    ((at_ .cfg0 midData openTx).Inv ∧ midData.phase = .data) ∧
    (at_ .cfg0 midCsum openTx).Inv ∧ midCsum.phase = .csum ∧ Config.cfg0.ck.fin midCsum.sum = 0xF2 :=
  ⟨⟨midData_inv, rfl⟩, midCsum_inv, rfl, by decide⟩

theorem witness_RxaGivesCanonicalHunt : State.reset.Inv ∧ State.reset.rx.phase = .hunt := ⟨reset_inv, rfl⟩

/-- A frame, a corrupt checksum, and a corrupt length. -/
theorem witness_EventsComeOnlyAtTheirPhase :
    (after 0x100000F2 (at_ .cfg0 midCsum openTx)).bind (·.result) = some ⟨.ok, .frame 0x00 4 [0x01, 0x02, 0x03, 0x04], []⟩ ∧
    (after 0x100000F3 (at_ .cfg0 midCsum openTx)).bind (·.result) = some ⟨.ok, .corrupt .checksum, []⟩ ∧
    (after 0x10000041 (at_ .cfg1 midLen openTx)).bind (·.result) = some ⟨.ok, .corrupt .lenRange, []⟩ := by
  decide +kernel

theorem witness_CorruptLeavesOnlyTheEvent :
    ∃ t, exec (.rxb 0xF3) (at_ .cfg0 midCsum openTx) = .next t ∧ t.result = some ⟨.ok, .corrupt .checksum, []⟩ :=
  ⟨_, rfl, by decide⟩

theorem witness_ReceiveOperationsLeaveTheTransmitHalf :
    (∃ t, exec (.rxb 0x5A) mid = .next t) ∧ ∃ t, exec .rxa mid = .next t := ⟨⟨_, rfl⟩, ⟨_, rfl⟩⟩

/-- A store in range; a phase that stores nothing; a return to `HUNT`. -/
theorem witness_RxbStoresOneByteAtItsIndex :
    ((at_ .cfg0 midData openTx).rx.phase = .data ∧ rxStoreIndex (at_ .cfg0 midData openTx) < Config.cfg0.maxPayload) ∧
    (∃ t, exec (.rxb 0x04) (at_ .cfg0 midData openTx) = .next t) ∧
    (∃ t, exec (.rxb 0x04) mid = .next t ∧ mid.rx.phase ≠ .data ∧ t.rx.phase ≠ .hunt) ∧
    ∃ t, exec (.rxb 0xF3) (at_ .cfg0 midCsum openTx) = .next t ∧ midCsum.phase ≠ .hunt ∧ t.rx.phase = .hunt :=
  ⟨by decide, ⟨_, rfl⟩, ⟨_, rfl, by decide, by decide⟩, ⟨_, rfl, by decide, by decide⟩⟩

theorem witness_BufferAccessesAreInRange :
    ((at_ .cfg0 midData openTx).Inv ∧ midData.phase = .data) ∧ (at_ .cfg0 midCsum openTx).Inv ∧ midCsum.phase = .csum ∧
    3 < midCsum.len.toNat := ⟨⟨midData_inv, rfl⟩, midCsum_inv, rfl, by decide⟩

theorem witness_RefusalsWriteNothing :
    ∃ t r, runWord 0x70000000 mid = .next t ∧ t.result = some r ∧ r.resp ≠ .ok := ⟨_, _, rfl, rfl, by decide⟩

/-- Each of the four refusals. -/
theorem witness_ResponsesComeFromTheirConditions :
    ((after 0x70000000 mid).bind (·.result)).map (·.resp) = some .errIllegal ∧
    ((after 0x30FFFFFF mid).bind (·.result)).map (·.resp) = some .errBusy ∧
    ((after 0x40000011 State.reset).bind (·.result)).map (·.resp) = some .errIdle ∧
    ((after 0x30090100 State.reset).bind (·.result)).map (·.resp) = some .errLen := by decide

theorem witness_EventPortFieldsFollowTheTable :
    (⟨.ok, .none, []⟩ : Result).evt = .none ∧ (∃ c n p, (⟨.ok, .frame 1 1 [2], []⟩ : Result).evt = .frame c n p) ∧
    (⟨.ok, .corrupt .lenRange, []⟩ : Result).evt = .corrupt .lenRange ∧
    (⟨.ok, .corrupt .checksum, []⟩ : Result).evt = .corrupt .checksum := ⟨rfl, ⟨_, _, _, rfl⟩, rfl, rfl⟩

/-- A word of each side, two states that share a half, and a refusal. -/
theorem witness_HalvesShareNothing :
    side 0x1000005A = .receive ∧ side 0x20000000 = .receive ∧ side 0x30000004 = .transmit ∧ side 0x400000F2 = .transmit ∧
    side 0x50000000 = .transmit ∧ side 0x00000000 = .neither ∧ side 0x70000000 = .neither ∧ encode .rst = 0x60000000 ∧
    ((at_ .cfg0 midLen openTx).cfg = mid.cfg ∧ (at_ .cfg0 midLen openTx).rx = mid.rx) ∧
    ((at_ .cfg0 midData mid.tx).cfg = mid.cfg ∧ (at_ .cfg0 midData mid.tx).tx = mid.tx) := by decide

theorem witness_FragmentationIsInvisible :
    ∀ w ∈ [(0x00000000 : Word), 0x30000004, 0x50000000], side w = .transmit ∨ w = encode .nop := by
  simp only [List.forall_mem_cons]
  exact ⟨.inr (by decide), .inl (by decide), .inl (by decide), by simp⟩

theorem witness_StepKeepsTheInvariant : mid.Inv ∧ ∃ t, step mid = .next t := ⟨mid_inv, _, rfl⟩

theorem witness_ResetMeetsTheInvariant : Config.wf .cfg3 = true := by decide

theorem witness_ReachableStatesAreOnTheTables : (State.reset).Reachable :=
  ⟨.cfg0, [], ⟨[], State.reset⟩, by decide, rfl, rfl⟩

theorem witness_StepKeepsTheBufferCanonical :
    (at_ .cfg0 midData openTx).BufOk ∧ ∃ t, step ((at_ .cfg0 midData openTx).present 0x10000004) = .next t :=
  ⟨⟨by decide, by decide⟩, _, rfl⟩

/-- The registers at both ends of their ranges. -/
theorem witness_RegistersKeepTheirWidths :
    (mid.WidthsOk ∧ ∃ t, step (mid.present 0x1000005A) = .next t) ∧ 1 ≤ (LenReg.one 1).toNat ∧ 1 ≤ (LenReg.two 65535).toNat :=
  ⟨⟨⟨by decide, by decide, by decide⟩, _, rfl⟩, by decide, by decide⟩

theorem witness_LengthCodecRoundTrips :
    65535 < 2 ^ (8 * lenWidth .cfg2) ∧ ([0xFF, 0xFF] : List Byte).length = lenWidth .cfg3 ∧
    ([0xFF] : List Byte).length + 1 ≤ lenWidth .cfg3 ∧ (Config.cfg3.lenEndian = .little) ∧
    ([] : List Byte).length + 1 ≤ lenWidth .cfg0 ∧ (Config.cfg0.lenEndian = .big ∨ Config.cfg0.lenBytes = .one) := by decide

theorem witness_EncodedFramesHaveTheLayout : ([] : List Byte).length ≤ Config.cfg0.maxPayload := by decide

theorem witness_EncodeIsPartialAndInjective :
    Config.cfg1.maxPayload < (List.replicate 65 (0 : Byte)).length ∧
    (Config.cfg1.maxPayload < (65 : Half).toNat ∧ (State.resetOf .cfg1).tx.phase = .idle) ∧
    Config.wf .cfg0 = true ∧ frameEncode .cfg0 [] 0x00 = some [0x5A, 0x00, 0x00, 0x00] := by decide

/-- A list with stray bytes before a frame, and one that holds none. -/
theorem witness_DecodeIsStrayBytesThenOneFrame :
    Config.wf .cfg0 = true ∧ Config.cfg0.marker ∉ [(0x00 : Byte), 0xFF] ∧
    frameEncode .cfg0 [] 0xFF = some [0x5A, 0xFF, 0x00, 0x01] ∧
    ¬ ∃ s f ctr payload, Config.cfg0.marker ∉ s ∧ frameEncode .cfg0 payload ctr = some f ∧ ([] : List Byte) = s ++ f := by
  refine ⟨by decide, by decide, by decide, ?_⟩
  rintro ⟨s, f, ctr, payload, -, hf, h⟩
  obtain ⟨-, rfl⟩ := frameEncode_eq_some_iff.1 hf
  simp [frameBytes] at h

theorem witness_DecodeInvertsFrameEncode :
    Config.wf .cfg1 = true ∧ (List.replicate 64 (0x5A : Byte)).length ≤ Config.cfg1.maxPayload := by decide

/-- The first byte that counts, the last, and the marker. -/
theorem witness_OneChangedByteIsCorrupt :
    Config.Legal .cfg0 ∧ frameEncode .cfg0 [0x01] 0x00 = some [0x5A, 0x00, 0x01, 0x01, 0xFE] ∧
    ((0x01 : Byte) ≠ [(0x5A : Byte), 0x00, 0x01, 0x01, 0xFE][1]) ∧ ((0xFF : Byte) ≠ [(0x5A : Byte), 0x00, 0x01, 0x01, 0xFE][4]) ∧
    (0x00 : Byte) ≠ Config.cfg0.marker := ⟨Config.cfg0_legal, by decide, by decide, by decide, by decide⟩

theorem witness_StrayLeadingBytes :
    (0x00 : Byte) ≠ Config.cfg0.marker ∧ Config.cfg0.marker ∉ [(0x00 : Byte)] ∧ Config.wf .cfg0 = true ∧
    Config.cfg0.ck ∈ [Checksum.sum8n, .sum8, .xor8, .crc8] ∧ Config.cfg0.marker ≠ 0 ∧
    frameEncode .cfg0 [] 0x00 = some [0x5A, 0x00, 0x00, 0x00] := by decide

/-- P9: the frame `send 0x11, [7F]` with receive operations between. -/
theorem witness_SendEmitsTheEncodedFrame :
    State.reset.cfg.wf = true ∧ State.reset.tx = canonicalIdle .cfg0 ∧ [(0x7F : Byte)].length ≤ Config.cfg0.maxPayload ∧
    transmitWords [0x30110001, 0x10000010, 0x00000000, 0x4000007F] = sendWords 0x11 [0x7F] := by decide

theorem witness_ResendIsIdentical :
    (at_ .cfg0 midLen (canonicalIdle .cfg0)).cfg = State.reset.cfg ∧ State.reset.tx = canonicalIdle .cfg0 ∧
    (at_ .cfg0 midLen (canonicalIdle .cfg0)).tx = canonicalIdle .cfg0 := by decide

/-- P9: the frame received with transmit operations and a `NOP` between; and a stray byte before a frame. -/
theorem witness_ReceivedFramesAreDelivered :
    State.reset.cfg.wf = true ∧ State.reset.rx = canonicalHunt .cfg0 ∧ Config.cfg0.marker ∉ [(0xFF : Byte)] ∧
    frameEncode .cfg0 [0xC0] 0x10 = some [0x5A, 0x10, 0x01, 0xC0, 0x2F] ∧
    receiveWords [0x100000FF, 0x1000005A, 0x30110001, 0x10000010, 0x10000001, 0x00000000, 0x100000C0, 0x4000007F, 0x1000002F] =
      feedWords ([0xFF] ++ [0x5A, 0x10, 0x01, 0xC0, 0x2F]) ∧
    ∀ x ∈ [((0x10 : Byte), [(0xC0 : Byte)]), (0x11, [])], x.2.length ≤ Config.cfg0.maxPayload := by decide

theorem witness_SentFramesAreReceived :
    State.reset.cfg.wf = true ∧ State.reset.tx = canonicalIdle .cfg0 ∧ State.reset.rx = canonicalHunt .cfg0 ∧
    ([] : List Byte).length ≤ Config.cfg0.maxPayload := by decide

theorem witness_ReceiverAgreesWithDecode :
    State.reset.cfg.wf = true ∧ State.reset.rx = canonicalHunt .cfg0 ∧
    frameDecode .cfg0 [0xFF, 0x5A, 0x00, 0x00, 0x00] = .frame 0x00 [] := by decide

theorem witness_OnlyReceivedFramesAreDelivered :
    State.reset.cfg.wf = true ∧ State.reset.rx = canonicalHunt .cfg0 ∧
    ((run (feedWords ([0x5A, 0x00, 0x00] ++ [0x00])) State.reset).map fun r => r.events.getLast?) =
      some (some (.frame 0x00 0 [])) := by decide

theorem witness_EndedCandidatesLeaveNoTrace :
    State.reset.rx = canonicalHunt .cfg0 ∧ side 0x30110001 = .transmit ∧ (0x1000005A : Word) = encode (.rxb 0x5A) ∧
    ((run ([0x1000005A, 0x30110001, 0x10000000, 0x10000000] ++ [encode (.rxb 0xFF)]) State.reset).map fun r =>
      r.events.getLast?) = some (some (.corrupt .checksum)) := by decide

/-- The counter, the first payload byte and the checksum changed. -/
theorem witness_ChangedByteIsRejectedByTheReceiver :
    State.reset.cfg.Legal ∧ State.reset.rx = canonicalHunt .cfg0 ∧
    frameEncode .cfg0 [0x01] 0x00 = some [0x5A, 0x00, 0x01, 0x01, 0xFE] ∧ hdr .cfg0 ≤ 3 ∧ hdr .cfg0 ≤ 4 ∧
    ((0x01 : Byte) ≠ [(0x5A : Byte), 0x00, 0x01, 0x01, 0xFE][1]) ∧ ((0x02 : Byte) ≠ [(0x5A : Byte), 0x00, 0x01, 0x01, 0xFE][3]) ∧
    ((0xFF : Byte) ≠ [(0x5A : Byte), 0x00, 0x01, 0x01, 0xFE][4]) :=
  ⟨Config.cfg0_legal, by decide, by decide, by decide, by decide, by decide, by decide, by decide⟩

/-- A candidate that has just declared 255 bytes, and one that has declared none. -/
theorem witness_CandidateEndsAfterItsDeclaredLength :
    ((at_ .cfg0 ⟨.data, 0, .one 255, .one 0, 0xFF, []⟩ openTx).Inv ∧
      (List.replicate 256 (0 : Byte)).length = (LenReg.one 255).toNat + 1) ∧
    (at_ .cfg0 ⟨.csum, 0, .one 0, .one 0, 0, []⟩ openTx).Inv ∧ [(0 : Byte)].length = (LenReg.one 0).toNat + 1 :=
  ⟨⟨⟨by decide, ⟨255, [], by decide, by decide, by decide, by decide⟩, midData_inv.tx⟩, List.length_replicate⟩,
    ⟨by decide, ⟨0, [], by decide, by decide, by decide⟩, midData_inv.tx⟩, by decide⟩

theorem witness_LinesAssembleToTheirWords : AsmLine.wf (.send 255 [255]) = true ∧ [(255 : Byte)].length < 65536 := by decide

end Sys2Proof.Tests
end

section
/-! PROOFS. Family 00_scope.md: the step runs the decoded word (O9), and is total (O10). -/

namespace Sys2Proof.Machine

/-! ### A word by what it decodes to -/

theorem runWord_of_instr {w : Word} {i : Instr} (h : decode w = .instr i) (s : State) : runWord w s = exec i s := by
  simp [runWord, h]

theorem runWord_of_illegal {w : Word} {e : DecodeError} (h : decode w = .illegal e) (s : State) :
    runWord w s = .next s.illegalWord := by
  simp [runWord, h]

/-! ### The step in every state -/

/-- Presenting a word and taking it gives back the state it was presented to. -/
theorem step_present (s : State) (w : Word) : step (s.present w) = runWord w s :=
  step_cons (ws := s.input) rfl

/-- The idle step and the step on a word both answer a next state. -/
theorem step_next (s : State) : ∃ t, step s = .next t := by
  cases h : s.input with
  | nil => exact ⟨s.noOperation, step_nil h⟩
  | cons w ws => exact ⟨afterWord w (s.setInput ws), (step_cons h).trans (runWord_eq w (s.setInput ws))⟩

/-! ### The obligations -/

/-- Settles O9: a step runs the next word on the state without it, and a word runs by what it decodes to. -/
theorem stepRunsTheDecodedWord : Obligations.StepRunsTheDecodedWord := by
  intro s w ws hinput
  have hstep : step s = runWord w (s.setInput ws) := step_cons hinput
  constructor
  · intro i hi
    exact hstep.trans (runWord_of_instr hi _)
  · intro e he
    exact hstep.trans (runWord_of_illegal he _)

/-- Settles O10: every state has a next state, and every word presented runs to one that has a result. -/
theorem everyWordHasAnOutcomeInEveryState : Obligations.EveryWordHasAnOutcomeInEveryState := by
  intro s
  refine ⟨step_next s, fun w => ?_⟩
  obtain ⟨t, r, hrun, hresult, -, hinput⟩ := runWord_next w s
  exact ⟨t, r, (step_present s w).trans hrun, hresult, hinput⟩

end Sys2Proof.Machine
end

section
/-! PROOFS. Family 10_state.md: the invariant of R37 and R38 (O31, O32, O33), the widths of R22 and R23 (O35), the reset
table (O1), the configuration (O12), `STATUS` (O27). The step is said once, half by half (`step_change`); each invariant
is a case analysis over that. -/

namespace Sys2Proof.Machine

/-! ### What a step can do to each half -/

/-- What a step can do to the receive half `rx`. -/
inductive RxStep (cfg : Config) (rx : RxHalf) : RxHalf → Prop
  /-- Nothing: no receive operation, or a stray byte (R153). -/
  | keep : RxStep cfg rx rx
  /-- Back to `HUNT`: `RXA`, `RST`, a delivery, a `CORRUPT` (R31). -/
  | hunt : RxStep cfg rx (canonicalHunt cfg)
  /-- The marker (R153). -/
  | marker (hphase : rx.phase = .hunt) : RxStep cfg rx { rx with phase := .ctr }
  /-- The counter (R154). -/
  | counter (b : Byte) (hphase : rx.phase = .ctr) :
      RxStep cfg rx { rx with phase := .len, ctr := b, sum := cfg.ck.step cfg.ck.init b }
  /-- A length byte that is not the last (R155). -/
  | lengthByte (b : Byte) (hphase : rx.phase = .len) (hmore : rx.idx.toNat + 1 < lenWidth cfg) :
      RxStep cfg rx { rx with
        len := lenReg cfg (mergeLen cfg rx.len.toNat rx.idx.toNat b), sum := cfg.ck.step rx.sum b, idx := rx.idx.succ }
  /-- The last length byte of an empty payload (R155). -/
  | lengthZero (b : Byte) (hphase : rx.phase = .len) (hlast : lenWidth cfg ≤ rx.idx.toNat + 1)
      (hzero : mergeLen cfg rx.len.toNat rx.idx.toNat b = 0) :
      RxStep cfg rx { rx with
        len := lenReg cfg 0, sum := cfg.ck.step rx.sum b, idx := lenReg cfg 0, phase := .csum }
  /-- The last length byte of a payload within `MAX_PAYLOAD` (R155). -/
  | lengthDone (b : Byte) (hphase : rx.phase = .len) (hlast : lenWidth cfg ≤ rx.idx.toNat + 1)
      (hpos : mergeLen cfg rx.len.toNat rx.idx.toNat b ≠ 0)
      (hfits : mergeLen cfg rx.len.toNat rx.idx.toNat b ≤ cfg.maxPayload) :
      RxStep cfg rx { rx with
        len := lenReg cfg (mergeLen cfg rx.len.toNat rx.idx.toNat b), sum := cfg.ck.step rx.sum b,
        idx := lenReg cfg 0, phase := .data }
  /-- A payload byte (R156). -/
  | payload (b : Byte) (hphase : rx.phase = .data) :
      RxStep cfg rx { rx with
        phase := if rx.idx.toNat + 1 = rx.len.toNat then .csum else .data, sum := cfg.ck.step rx.sum b,
        idx := rx.idx.succ, buf := memWrite cfg rx.buf rx.idx.toNat b }

/-- What a step can do to the transmit half `tx`. -/
inductive TxStep (cfg : Config) (tx : TxHalf) : TxHalf → Prop
  /-- Nothing: no transmit operation, or a refusal (R193). -/
  | keep : TxStep cfg tx tx
  /-- Back to `IDLE`: `TXA`, `RST`, a frame completed (R36). -/
  | idle : TxStep cfg tx (canonicalIdle cfg)
  /-- An accepted `TXS` with a payload to come (R132). -/
  | start (ctr : Byte) (len : Half) (hpos : len ≠ 0) (hfits : len.toNat ≤ cfg.maxPayload) :
      TxStep cfg tx ⟨.data, lenReg cfg len.toNat, txHeaderSum cfg ctr len⟩
  /-- A payload byte that is not the last (R134). -/
  | payload (b : Byte) (hphase : tx.phase = .data) (hmore : tx.rem.pred.toNat ≠ 0) :
      TxStep cfg tx ⟨.data, tx.rem.pred, cfg.ck.step tx.sum b⟩

/-- What a step can do to the registers and the configuration. -/
structure Change (s t : State) : Prop where
  cfg : t.cfg = s.cfg
  rx  : RxStep s.cfg s.rx t.rx
  tx  : TxStep s.cfg s.tx t.tx

theorem rxByte_rxStep (b : Byte) (s : State) : RxStep s.cfg s.rx (rxByte b s).rx := by
  cases hphase : s.rx.phase with
  | hunt =>
    rw [rxByte_hunt hphase, rxHunt]
    split_ifs
    · exact .marker hphase
    · exact .keep
  | ctr => rw [rxByte_ctr hphase]; exact .counter b hphase
  | len =>
    rw [rxByte_len hphase, rxLen]
    dsimp only
    split_ifs with hmore hlong hzero
    · exact .lengthByte b hphase hmore
    · exact .hunt
    · exact .lengthZero b hphase (not_lt.mp hmore) hzero
    · exact .lengthDone b hphase (not_lt.mp hmore) hzero (not_lt.mp hlong)
  | data => rw [rxByte_data hphase]; exact .payload b hphase
  | csum =>
    rw [rxByte_csum hphase, rxCsum]
    split_ifs <;> exact .hunt

theorem rxByte_tx (b : Byte) (s : State) : (rxByte b s).tx = s.tx := by
  rcases rxByte_cases b s with ⟨rx, h⟩ | ⟨cause, h, -⟩ | ⟨h, -⟩ <;> simp [h]

theorem txStart_txStep {ctr : Byte} {len : Half} {s : State} (hfits : len.toNat ≤ s.cfg.maxPayload) :
    TxStep s.cfg s.tx (txStart ctr len s).tx := by
  unfold txStart
  split_ifs with hzero
  · exact .idle
  · exact .start ctr len hzero hfits

theorem txByte_txStep (b : Byte) {s : State} (hphase : s.tx.phase = .data) : TxStep s.cfg s.tx (txByte b s).tx := by
  unfold txByte
  dsimp only
  split_ifs with hlast
  · exact .idle
  · exact .payload b hphase hlast

/-- The two halves after an instruction. -/
theorem exec_rxStep_txStep {i : Instr} {s t : State} (h : exec i s = .next t) :
    RxStep s.cfg s.rx t.rx ∧ TxStep s.cfg s.tx t.tx := by
  cases i with
  | nop => cases h; exact ⟨.keep, .keep⟩
  | rxb b => cases h; exact ⟨rxByte_rxStep b s, by rw [rxByte_tx]; exact .keep⟩
  | rxa => cases h; exact ⟨.hunt, .keep⟩
  | txs ctr len =>
    obtain ⟨hrun, -⟩ | ⟨hrun, -⟩ | ⟨hrun, -, hfits, tx, bytes, htx⟩ := execTxs_cases ctr len s
    · cases hrun.symm.trans h; exact ⟨.keep, .keep⟩
    · cases hrun.symm.trans h; exact ⟨.keep, .keep⟩
    · cases hrun.symm.trans h
      exact ⟨by rw [htx]; exact .keep, txStart_txStep hfits⟩
  | txd b =>
    obtain ⟨hrun, -⟩ | ⟨hrun, hphase, tx, bytes, htx⟩ := execTxd_cases b s
    · cases hrun.symm.trans h; exact ⟨.keep, .keep⟩
    · cases hrun.symm.trans h
      exact ⟨by rw [htx]; exact .keep, txByte_txStep b hphase⟩
  | txa => cases h; exact ⟨.keep, .idle⟩
  | rst => cases h; exact ⟨.hunt, .idle⟩

theorem exec_change {i : Instr} {s t : State} (h : exec i s = .next t) : Change s t := by
  obtain ⟨t', r, hrun, -, hcfg, -⟩ := exec_next i s
  obtain ⟨hrx, htx⟩ := exec_rxStep_txStep h
  cases hrun.symm.trans h
  exact ⟨hcfg, hrx, htx⟩

theorem runWord_change {w : Word} {s t : State} (h : runWord w s = .next t) : Change s t := by
  cases hw : decode w with
  | instr i => exact exec_change ((runWord_of_instr hw s).symm.trans h)
  | illegal e =>
    cases (runWord_of_illegal hw s).symm.trans h
    exact ⟨rfl, .keep, .keep⟩

/-- A step, on a word or idle, changes each half as `RxStep` and `TxStep` say, and not the configuration. -/
theorem step_change {s t : State} (h : step s = .next t) : Change s t := by
  cases hinput : s.input with
  | nil =>
    cases (step_nil hinput).symm.trans h
    exact ⟨rfl, .keep, .keep⟩
  | cons w ws =>
    obtain ⟨hcfg, hrx, htx⟩ := runWord_change ((step_cons hinput).symm.trans h)
    exact ⟨hcfg, hrx, htx⟩

/-- What every step keeps holds at the end of a run that starts with it. -/
theorem collect_preserves {P : State → Prop} (hstep : ∀ s t, P s → step s = .next t → P t) {n : Nat} {s : State}
    {r : Run} (hs : P s) (h : collect n s = some r) : P r.final := by
  induction n generalizing s r with
  | zero => cases h; exact hs
  | succ n ih =>
    obtain ⟨t, ht⟩ := step_next s
    simp only [collect, ht, Option.map_eq_some_iff] at h
    obtain ⟨q, hq, rfl⟩ := h
    exact ih (r := q) (hstep s t hs ht) hq

/-! ### The length field in its register -/

theorem fold_append_one (ck : Checksum) (l : List Byte) (b : Byte) :
    ck.fold (l ++ [b]) = ck.step (ck.fold l) b := by
  simp [Checksum.fold]

section

variable {cfg : Config}

/-- One more length byte makes the length at most eight bits longer. -/
theorem mergeLen_lt {x k : Nat} (hx : x < 2 ^ (8 * k)) (b : Byte) : mergeLen cfg x k b < 2 ^ (8 * (k + 1)) := by
  have hb : b.toNat < 2 ^ 8 := b.isLt
  unfold mergeLen
  cases cfg.lenEndian with
  | little =>
    refine Nat.or_lt_two_pow (hx.trans (Nat.pow_lt_pow_right (by omega) (by omega))) ?_
    rw [Nat.shiftLeft_eq, Nat.mul_add, Nat.pow_add, Nat.mul_comm (2 ^ (8 * k))]
    exact Nat.mul_lt_mul_of_pos_right hb (by positivity)
  | big =>
    refine Nat.or_lt_two_pow ?_ (hb.trans_le (Nat.pow_le_pow_right (by omega) (by omega)))
    rw [Nat.shiftLeft_eq, Nat.mul_add, Nat.pow_add]
    exact Nat.mul_lt_mul_of_pos_right hx (by positivity)

theorem lenpartial_lt (cfg : Config) (l : List Byte) : lenpartial cfg l < 2 ^ (8 * l.length) := by
  induction l using List.reverseRecOn with
  | nil => exact Nat.one_pos
  | append_singleton l b ih =>
    rw [lenpartial_append_one, List.length_append, List.length_singleton]
    exact mergeLen_lt ih b

/-- A whole length field is the wire form of the length it spells (R74). -/
theorem lenbytes_lenpartial {l : List Byte} (h : l.length = lenWidth cfg) : lenbytes cfg (lenpartial cfg l) = l := by
  have merge (x y : Byte) : (x.toNat <<< 8 ||| y.toNat) = x.toNat * 256 + y.toNat := by
    rw [Nat.shiftLeft_eq, Nat.mul_comm, Nat.two_pow_add_eq_or_of_lt (b := y.toNat) y.isLt]
  unfold lenWidth at h
  unfold lenbytes
  cases hw : cfg.lenBytes with
  | one =>
    simp only [hw] at h
    obtain ⟨b, rfl⟩ := List.length_eq_one_iff.mp h
    cases he : cfg.lenEndian with
    | big => simp [lenpartial, mergeLens, mergeLen, he]
    | little => simp [lenpartial, mergeLens, mergeLen, he]
  | two =>
    simp only [hw] at h
    obtain ⟨b, c, rfl⟩ := List.length_eq_two.mp h
    have hb := b.isLt
    have hc := c.isLt
    cases he : cfg.lenEndian with
    | big =>
      have hval : lenpartial cfg [b, c] = b.toNat * 256 + c.toNat := by
        simp [lenpartial, mergeLens, mergeLen, he, merge]
      simp [hval, BitVec.toNat_eq, Nat.shiftRight_eq_div_pow]
      omega
    | little =>
      have hval : lenpartial cfg [b, c] = c.toNat * 256 + b.toNat := by
        simp [lenpartial, mergeLens, mergeLen, he, Nat.or_comm b.toNat, merge]
      simp [hval, BitVec.toNat_eq, Nat.shiftRight_eq_div_pow]
      omega

theorem toNat_lenReg_lenpartial {l : List Byte} (h : l.length ≤ lenWidth cfg) :
    (lenReg cfg (lenpartial cfg l)).toNat = lenpartial cfg l :=
  toNat_lenReg_of_lt cfg ((lenpartial_lt cfg l).trans_le (Nat.pow_le_pow_right (by omega) (by omega)))

theorem toNat_lenReg_of_le_lenWidth {k : Nat} (h : k ≤ lenWidth cfg) : (lenReg cfg k).toNat = k :=
  toNat_lenReg_of_lt cfg
    (calc k ≤ 8 * lenWidth cfg := by omega
      _ < 2 ^ (8 * lenWidth cfg) := Nat.lt_two_pow_self)

theorem toNat_lenReg_of_le_maxPayload (hwf : cfg.wf = true) {n : Nat} (h : n ≤ cfg.maxPayload) :
    (lenReg cfg n).toNat = n :=
  toNat_lenReg_of_lt cfg (h.trans_lt (maxPayload_lt_of_wf hwf))

/-! ### The lines of the tables of R37 and R38 -/

theorem RxHalf.Inv.of_len {rx : RxHalf} (h : rx.Inv cfg) (hphase : rx.phase = .len) :
    ∃ (ctr : Byte) (lb : List Byte), lb.length < lenWidth cfg ∧
      rx = ⟨.len, ctr, lenReg cfg (lenpartial cfg lb), lenReg cfg lb.length, cfg.ck.fold ([ctr] ++ lb), []⟩ := by
  simp only [RxHalf.Inv, hphase] at h
  exact ⟨rx.ctr, h⟩

theorem RxHalf.Inv.of_data {rx : RxHalf} (h : rx.Inv cfg) (hphase : rx.phase = .data) :
    ∃ (ctr : Byte) (n : Nat) (p : List Byte), 1 ≤ n ∧ n ≤ cfg.maxPayload ∧ p.length < n ∧
      rx = ⟨.data, ctr, lenReg cfg n, lenReg cfg p.length, cfg.ck.fold ([ctr] ++ lenbytes cfg n ++ p),
        Memory.ofBytes p⟩ := by
  simp only [RxHalf.Inv, hphase] at h
  exact ⟨rx.ctr, h⟩

theorem TxHalf.Inv.of_data {tx : TxHalf} (h : tx.Inv cfg) (hphase : tx.phase = .data) :
    ∃ (ctr : Byte) (n : Nat) (q : List Byte), 1 ≤ n ∧ n ≤ cfg.maxPayload ∧ q.length < n ∧
      tx = ⟨.data, lenReg cfg (n - q.length), cfg.ck.fold ([ctr] ++ lenbytes cfg n ++ q)⟩ := by
  simpa only [TxHalf.Inv, hphase] using h

/-! ### The invariant is kept -/

/-- Every change of the receive half leads from a line of R37's table to a line of it: a byte taken in `LEN` extends `lb`,
one taken in `DATA` extends `p`, and the last of each opens the next line. -/
theorem RxStep.inv {rx rx' : RxHalf} (hstep : RxStep cfg rx rx') (hwf : cfg.wf = true) (h : rx.Inv cfg) : rx'.Inv cfg := by
  cases hstep with
  | keep => exact h
  | hunt => rfl
  | marker hphase =>
    simp only [RxHalf.Inv, hphase] at h
    subst h
    rfl
  | counter b hphase =>
    simp only [RxHalf.Inv, hphase] at h
    subst h
    exact ⟨[], lenWidth_pos cfg, rfl⟩
  | lengthByte b hphase hmore =>
    obtain ⟨ctr, lb, hlb, rfl⟩ := h.of_len hphase
    rw [toNat_lenReg_of_le_lenWidth hlb.le] at hmore ⊢
    refine ⟨lb ++ [b], by simpa using hmore, ?_⟩
    rw [toNat_lenReg_lenpartial hlb.le, ← lenpartial_append_one, succ_lenReg, ← List.append_assoc, fold_append_one,
      List.length_append, List.length_singleton]
  | lengthZero b hphase hlast hzero =>
    obtain ⟨ctr, lb, hlb, rfl⟩ := h.of_len hphase
    rw [toNat_lenReg_of_le_lenWidth hlb.le] at hlast hzero
    rw [toNat_lenReg_lenpartial hlb.le, ← lenpartial_append_one] at hzero
    have hlen : (lb ++ [b]).length = lenWidth cfg := by simp; omega
    refine ⟨0, [], Nat.zero_le _, rfl, ?_⟩
    rw [← hzero, lenbytes_lenpartial hlen, List.append_nil, ← List.append_assoc, fold_append_one]
    rfl
  | lengthDone b hphase hlast hpos hfits =>
    obtain ⟨ctr, lb, hlb, rfl⟩ := h.of_len hphase
    rw [toNat_lenReg_of_le_lenWidth hlb.le] at hlast hpos hfits ⊢
    rw [toNat_lenReg_lenpartial hlb.le, ← lenpartial_append_one] at hpos hfits ⊢
    have hlen : (lb ++ [b]).length = lenWidth cfg := by simp; omega
    refine ⟨_, [], Nat.pos_of_ne_zero hpos, hfits, Nat.pos_of_ne_zero hpos, ?_⟩
    rw [lenbytes_lenpartial hlen, List.append_nil, ← List.append_assoc, fold_append_one]
    rfl
  | payload b hphase =>
    obtain ⟨ctr, n, p, hn, hfits, hp, rfl⟩ := h.of_data hphase
    have hidx := toNat_lenReg_of_le_maxPayload hwf (hp.le.trans hfits)
    dsimp only
    rw [hidx, toNat_lenReg_of_le_maxPayload hwf hfits, succ_lenReg, memWrite_ofBytes cfg p b (by omega),
      ← fold_append_one, List.append_assoc _ p]
    split_ifs with hlast
    · subst hlast
      exact ⟨_, p ++ [b], hfits, by simp, rfl⟩
    · exact ⟨n, p ++ [b], hn, hfits, by simp; omega, by simp⟩

/-- Every change of the transmit half leads from a line of R38's table to a line of it: `TXD` extends `q`, and the half stays
in `DATA` exactly while `q` is shorter than the declared length. -/
theorem TxStep.inv {tx tx' : TxHalf} (hstep : TxStep cfg tx tx') (h : tx.Inv cfg) : tx'.Inv cfg := by
  cases hstep with
  | keep => exact h
  | idle => rfl
  | start ctr len hpos hfits =>
    have hlen : 0 < len.toNat := Nat.pos_of_ne_zero fun h => hpos (BitVec.eq_of_toNat_eq h)
    exact ⟨ctr, len.toNat, [], hlen, hfits, hlen, by rw [List.append_nil]; rfl⟩
  | payload b hphase hmore =>
    obtain ⟨ctr, n, q, hn, hfits, hq, rfl⟩ := h.of_data hphase
    have hrem : (lenReg cfg (n - q.length)).pred = lenReg cfg (n - (q ++ [b]).length) := by
      rw [List.length_append, List.length_singleton, show n - q.length = n - (q.length + 1) + 1 by omega, pred_lenReg]
    have hopen : (q ++ [b]).length < n := by
      by_contra hclosed
      rw [hrem, Nat.sub_eq_zero_of_le (not_lt.mp hclosed), toNat_lenReg_zero] at hmore
      exact hmore rfl
    exact ⟨ctr, n, q ++ [b], hn, hfits, hopen, by rw [hrem, ← fold_append_one, List.append_assoc]⟩

end

theorem Change.inv {s t : State} (hc : Change s t) (h : s.Inv) : t.Inv := by
  refine ⟨?_, ?_, ?_⟩
  · rw [hc.cfg]; exact h.fits
  · rw [hc.cfg]; exact hc.rx.inv h.fits h.rx
  · rw [hc.cfg]; exact hc.tx.inv h.tx

theorem inv_resetOf {cfg : Config} (h : cfg.wf = true) : (State.resetOf cfg).Inv := ⟨h, rfl, rfl⟩

/-! ### The widths are kept -/

theorem RxStep.width {cfg : Config} {rx rx' : RxHalf} (hstep : RxStep cfg rx rx') (hlen : rx.len.width = 8 * lenWidth cfg)
    (hidx : rx.idx.width = 8 * lenWidth cfg) :
    rx'.len.width = 8 * lenWidth cfg ∧ rx'.idx.width = 8 * lenWidth cfg := by
  cases hstep with
  | keep => exact ⟨hlen, hidx⟩
  | hunt => simp [canonicalHunt]
  | marker => exact ⟨hlen, hidx⟩
  | counter => exact ⟨hlen, hidx⟩
  | lengthByte => simp [hidx]
  | lengthZero => simp
  | lengthDone => simp
  | payload => simp [hlen, hidx]

theorem TxStep.width {cfg : Config} {tx tx' : TxHalf} (hstep : TxStep cfg tx tx') (hrem : tx.rem.width = 8 * lenWidth cfg) :
    tx'.rem.width = 8 * lenWidth cfg := by
  cases hstep with
  | keep => exact hrem
  | idle => simp [canonicalIdle]
  | start => simp
  | payload => simp [hrem]

theorem Change.widthsOk {s t : State} (hc : Change s t) (h : s.WidthsOk) : t.WidthsOk := by
  obtain ⟨hlen, hidx, hrem⟩ := h
  obtain ⟨hlen', hidx'⟩ := hc.rx.width hlen hidx
  unfold State.WidthsOk
  rw [hc.cfg]
  exact ⟨hlen', hidx', hc.tx.width hrem⟩

theorem widthsOk_resetOf (cfg : Config) : (State.resetOf cfg).WidthsOk := by
  simp [State.WidthsOk, State.resetOf, canonicalHunt, canonicalIdle]

theorem LenReg.toNat_lt (r : LenReg) : r.toNat < 2 ^ r.width := by
  cases r with
  | one v => exact v.isLt
  | two v => exact v.isLt

theorem LenReg.toNat_succ (r : LenReg) : r.succ.toNat = (r.toNat + 1) % 2 ^ r.width := by
  cases r with
  | one v => exact BitVec.toNat_add v 1
  | two v => exact BitVec.toNat_add v 1

theorem LenReg.toNat_pred {r : LenReg} (h : 1 ≤ r.toNat) : r.pred.toNat = r.toNat - 1 := by
  cases r with
  | one v => exact BitVec.toNat_sub_of_le (y := 1) h
  | two v => exact BitVec.toNat_sub_of_le (y := 1) h

/-! ### Reset and `STATUS` -/

/-- `STATUS` as a number: `TXBUSY` above `RXPH` (R39). -/
theorem toNat_status (s : State) :
    (status s).toNat = (txPhaseCode s.tx.phase).toNat * 2 ^ 3 + (rxPhaseCode s.rx.phase).toNat := by
  rw [status, toNat_append_eq, toNat_append_eq]
  simp

/-- A state with both halves canonical: what the reset line gives, and what `RST` gives (R45). -/
theorem canonical_of_reset {s : State} (h : (∃ cfg, s = State.resetOf cfg) ∨ ∃ s0, exec .rst s0 = .next s) :
    s.rx = canonicalHunt s.cfg ∧ s.tx = canonicalIdle s.cfg := by
  obtain ⟨cfg, rfl⟩ | ⟨s0, h⟩ := h
  · exact ⟨rfl, rfl⟩
  · cases h
    exact ⟨rfl, rfl⟩

theorem status_of_canonical {s : State} (hrx : s.rx = canonicalHunt s.cfg) (htx : s.tx = canonicalIdle s.cfg) :
    status s = 0 := by
  rw [status, hrx, htx]
  show (0 : BitVec 4) ++ txPhaseCode .idle ++ rxPhaseCode .hunt = 0
  decide

/-! ### The obligations -/

/-- Settles O31: a step changes each half by `RxStep` and `TxStep`, and both keep the half on a line of its table. -/
theorem stepKeepsTheInvariant : Obligations.StepKeepsTheInvariant :=
  fun _ _ hinv hstep => (step_change hstep).inv hinv

/-- Settles O32: both halves are canonical after reset. -/
theorem resetMeetsTheInvariant : Obligations.ResetMeetsTheInvariant :=
  ⟨inv_resetOf rfl, fun _ => inv_resetOf⟩

/-- Settles O33: the invariant holds of the reset state with words to present, and every step of the run keeps it. -/
theorem reachableStatesAreOnTheTables : Obligations.ReachableStatesAreOnTheTables := by
  rintro s ⟨cfg, ws, r, hwf, hrun, rfl⟩
  have hstart : ((State.resetOf cfg).setInput ws).Inv := ⟨hwf, rfl, rfl⟩
  have hend : r.final.Inv := collect_preserves stepKeepsTheInvariant hstart hrun
  exact ⟨hend.rx, hend.tx⟩

/-- Settles O35: the step keeps the widths half by half; a register counts modulo its own width. -/
theorem registersKeepTheirWidths : Obligations.RegistersKeepTheirWidths := by
  refine ⟨widthsOk_resetOf, fun s t hs hstep => (step_change hstep).widthsOk hs, ?_, ?_⟩
  · exact fun cfg n => ⟨width_lenReg cfg n, toNat_lenReg cfg n⟩
  · exact fun r => ⟨r.toNat_lt, r.width_succ, r.width_pred, r.toNat_succ, LenReg.toNat_pred⟩

/-- Settles O1: the canonical values of the two halves are those of the table. -/
theorem resetGivesTheTableOfValues : Obligations.ResetGivesTheTableOfValues := by
  refine ⟨fun s h => ?_, fun _ => rfl, fun s t h => (exec_change h).cfg, fun s => ⟨_, rfl⟩, rfl, rfl, rfl, rfl⟩
  obtain ⟨hrx, htx⟩ := canonical_of_reset h
  have hstatus := status_of_canonical hrx htx
  rw [hrx, htx]
  exact ⟨rfl, rfl, rfl, rfl, rfl, rfl, rfl, rfl, rfl, hstatus⟩

/-- Settles O12: no instruction writes the configuration, nor does an illegal word or an idle step. -/
theorem noStepWritesTheConfiguration : Obligations.NoStepWritesTheConfiguration :=
  fun _ _ hstep => (step_change hstep).cfg

/-- Settles O27: the phase codes fill bit 3 and bits 2:0, and nothing stands above. -/
theorem statusShowsThePhases : Obligations.StatusShowsThePhases := by
  refine ⟨fun s => ?_, fun cfg => status_of_canonical rfl rfl⟩
  have hrx := (rxPhaseCode s.rx.phase).isLt
  have htx := (txPhaseCode s.tx.phase).isLt
  have hlow : (status s).toNat % 8 = (rxPhaseCode s.rx.phase).toNat := by rw [toNat_status]; omega
  have hbit : (status s).toNat / 8 % 2 = (txPhaseCode s.tx.phase).toNat := by rw [toNat_status]; omega
  refine ⟨?_, ?_, by rw [toNat_status]; omega⟩
  · rw [hlow]; cases s.rx.phase <;> rfl
  · rw [hbit]; cases s.tx.phase <;> rfl

end Sys2Proof.Machine
end

section
/-! PROOFS. Family 20_memory.md: sequences as folds (O11), the frames of the two halves and their independence (O16, O22,
O29, O30), the payload buffer (O23, O24, O34). What a word does is said once by the half it belongs to; a sequence is then
seen by each half as the words of that half alone (`finalOf_rx_deliveriesOf`, `finalOf_tx_streamOf`). -/

namespace Sys2Proof.Machine

/-! ### Instructions by half (R59) -/

/-- An instruction of the transmit half. -/
def TransmitInstr (i : Instr) : Prop := (∃ ctr len, i = .txs ctr len) ∨ (∃ b, i = .txd b) ∨ i = .txa

/-- An instruction of the receive half. -/
def ReceiveInstr (i : Instr) : Prop := (∃ b, i = .rxb b) ∨ i = .rxa

/-- A transmit instruction is refused, or writes the transmit half and emits bytes. -/
theorem exec_transmit_cases {i : Instr} (hi : TransmitInstr i) {s t : State} (h : exec i s = .next t) :
    (∃ e, t = s.refuse e) ∨ ∃ tx bytes, t = (s.setTx tx).answerOk bytes := by
  obtain ⟨ctr, len, rfl⟩ | ⟨b, rfl⟩ | rfl := hi
  · obtain ⟨hrun, -⟩ | ⟨hrun, -⟩ | ⟨hrun, -, -, haccept⟩ := execTxs_cases ctr len s
    · cases hrun.symm.trans h; exact .inl ⟨_, rfl⟩
    · cases hrun.symm.trans h; exact .inl ⟨_, rfl⟩
    · cases hrun.symm.trans h; exact .inr haccept
  · obtain ⟨hrun, -⟩ | ⟨hrun, -, haccept⟩ := execTxd_cases b s
    · cases hrun.symm.trans h; exact .inl ⟨_, rfl⟩
    · cases hrun.symm.trans h; exact .inr haccept
  · cases h; exact .inr ⟨_, _, rfl⟩

/-- A receive instruction writes the receive half, answers `OK` and emits nothing. -/
theorem exec_receive_eq {i : Instr} (hi : ReceiveInstr i) {s t : State} (h : exec i s = .next t) :
    ∃ rx e, t = (s.setRx rx).setResult (some ⟨.ok, e, []⟩) := by
  obtain ⟨b, rfl⟩ | rfl := hi
  · cases h
    obtain ⟨rx, hb⟩ | ⟨cause, hb, -⟩ | ⟨hb, -⟩ := rxByte_cases b s
    · exact ⟨rx, .none, hb⟩
    · exact ⟨_, .corrupt cause, hb⟩
    · exact ⟨_, .frame _ _ _, hb⟩
  · cases h; exact ⟨_, .none, rfl⟩

/-! ### Words by half -/

theorem afterWord_of_exec {w : Word} {i : Instr} {s t : State} (hw : decode w = .instr i) (h : exec i s = .next t) :
    afterWord w s = t :=
  Host.Outcome.next.inj ((runWord_eq w s).symm.trans ((runWord_of_instr hw s).trans h))

theorem exec_of_decode {w : Word} {i : Instr} (hw : decode w = .instr i) (s : State) :
    exec i s = .next (afterWord w s) :=
  (runWord_of_instr hw s).symm.trans (runWord_eq w s)

theorem afterWord_of_illegal {w : Word} {e : DecodeError} (hw : decode w = .illegal e) (s : State) :
    afterWord w s = s.illegalWord :=
  Host.Outcome.next.inj ((runWord_eq w s).symm.trans (runWord_of_illegal hw s))

/-- Which half a word belongs to, by the instruction it decodes to. -/
theorem decode_of_side (w : Word) :
    (side w = .receive ∧ ∃ i, decode w = .instr i ∧ ReceiveInstr i) ∨
    (side w = .transmit ∧ ∃ i, decode w = .instr i ∧ TransmitInstr i) ∨
    (side w = .both ∧ decode w = .instr .rst) ∨
    (side w = .neither ∧ (decode w = .instr .nop ∨ ∃ e, decode w = .illegal e)) := by
  unfold side
  cases decode w with
  | illegal e => simp
  | instr i => cases i <;> simp [ReceiveInstr, TransmitInstr]

theorem decode_of_receive {w : Word} (h : side w = .receive) : ∃ i, decode w = .instr i ∧ ReceiveInstr i := by
  simpa [h] using decode_of_side w

theorem decode_of_transmit {w : Word} (h : side w = .transmit) : ∃ i, decode w = .instr i ∧ TransmitInstr i := by
  simpa [h] using decode_of_side w

theorem decode_of_both {w : Word} (h : side w = .both) : decode w = .instr .rst := by
  simpa [h] using decode_of_side w

theorem decode_of_neither {w : Word} (h : side w = .neither) :
    decode w = .instr .nop ∨ ∃ e, decode w = .illegal e := by
  simpa [h] using decode_of_side w

theorem afterWord_of_receive {w : Word} (h : side w = .receive) (s : State) :
    ∃ rx e, afterWord w s = (s.setRx rx).setResult (some ⟨.ok, e, []⟩) := by
  obtain ⟨i, hw, hi⟩ := decode_of_receive h
  exact exec_receive_eq hi (exec_of_decode hw s)

theorem afterWord_of_transmit {w : Word} (h : side w = .transmit) (s : State) :
    (∃ e, afterWord w s = s.refuse e) ∨ ∃ tx bytes, afterWord w s = (s.setTx tx).answerOk bytes := by
  obtain ⟨i, hw, hi⟩ := decode_of_transmit h
  exact exec_transmit_cases hi (exec_of_decode hw s)

/-- `RST` makes both halves canonical (R182). -/
theorem afterWord_of_both {w : Word} (h : side w = .both) (s : State) :
    afterWord w s = s.huntAgain.idleAgain.answerOk [] :=
  afterWord_of_exec (decode_of_both h) rfl

/-- A word of neither half writes its response only, the same one in every state. -/
theorem afterWord_of_neither {w : Word} (h : side w = .neither) :
    ∃ e, ∀ s, afterWord w s = s.setResult (some ⟨e, .none, []⟩) := by
  obtain hw | ⟨e, hw⟩ := decode_of_neither h
  · exact ⟨.ok, fun s => afterWord_of_exec hw rfl⟩
  · exact ⟨.errIllegal, fun s => afterWord_of_illegal hw s⟩

/-- A refused or illegal word writes its response only (R193). -/
theorem eq_refuse_of_resp_ne_ok {w : Word} {s : State} {r : Result} (hr : (afterWord w s).result = some r)
    (hresp : r.resp ≠ .ok) : ∃ e, afterWord w s = s.refuse e := by
  cases h : side w with
  | receive =>
    obtain ⟨rx, e, hw⟩ := afterWord_of_receive h s
    rw [hw] at hr; cases hr; exact absurd rfl hresp
  | transmit =>
    obtain hw | ⟨tx, bytes, hw⟩ := afterWord_of_transmit h s
    · exact hw
    · rw [hw] at hr; cases hr; exact absurd rfl hresp
  | both =>
    rw [afterWord_of_both h] at hr; cases hr; exact absurd rfl hresp
  | neither =>
    obtain ⟨e, hw⟩ := afterWord_of_neither h
    exact ⟨e, hw s⟩

/-! ### What a word leaves unchanged, and what it depends on -/

/-- The frame of the receive half: other words leave it, and give no event. -/
theorem afterWord_rx_evt {w : Word} (hreceive : side w ≠ .receive) (hboth : side w ≠ .both) (s : State) :
    (afterWord w s).rx = s.rx ∧ ∃ r, (afterWord w s).result = some r ∧ r.evt = .none := by
  cases h : side w with
  | receive => exact absurd h hreceive
  | transmit =>
    obtain ⟨e, hw⟩ | ⟨tx, bytes, hw⟩ := afterWord_of_transmit h s
    · rw [hw]; exact ⟨rfl, _, rfl, rfl⟩
    · rw [hw]; exact ⟨rfl, _, rfl, rfl⟩
  | both => exact absurd h hboth
  | neither =>
    obtain ⟨e, hw⟩ := afterWord_of_neither h
    rw [hw]; exact ⟨rfl, _, rfl, rfl⟩

/-- The frame of the transmit half: other words leave it, and emit nothing. -/
theorem afterWord_tx_bytes {w : Word} (htransmit : side w ≠ .transmit) (hboth : side w ≠ .both) (s : State) :
    (afterWord w s).tx = s.tx ∧ ∃ r, (afterWord w s).result = some r ∧ r.tx = [] := by
  cases h : side w with
  | receive =>
    obtain ⟨rx, e, hw⟩ := afterWord_of_receive h s
    rw [hw]; exact ⟨rfl, _, rfl, rfl⟩
  | transmit => exact absurd h htransmit
  | both => exact absurd h hboth
  | neither =>
    obtain ⟨e, hw⟩ := afterWord_of_neither h
    rw [hw]; exact ⟨rfl, _, rfl, rfl⟩

section

variable {s s' : State}

/-- `RXB` reads the configuration and the receive half only. -/
theorem rxByte_congr (b : Byte) (hcfg : s'.cfg = s.cfg) (hrx : s'.rx = s.rx) :
    (rxByte b s').rx = (rxByte b s).rx ∧ (rxByte b s').result = (rxByte b s).result := by
  obtain ⟨cfg, ⟨phase, ctr, len, idx, sum, buf⟩, tx, input, result⟩ := s
  obtain ⟨cfg', rx', tx', input', result'⟩ := s'
  cases hcfg
  cases hrx
  cases phase <;> dsimp only [rxByte]
  case hunt => unfold rxHunt; dsimp only; split_ifs <;> exact ⟨rfl, rfl⟩
  case ctr => exact ⟨rfl, rfl⟩
  case len => unfold rxLen; dsimp only; split_ifs <;> exact ⟨rfl, rfl⟩
  case data => exact ⟨rfl, rfl⟩
  case csum => unfold rxCsum; dsimp only; split_ifs <;> exact ⟨rfl, rfl⟩

/-- `TXS` reads the configuration and the transmit half only. -/
theorem execTxs_congr (ctr : Byte) (len : Half) (hcfg : s'.cfg = s.cfg) (htx : s'.tx = s.tx) :
    ∃ t t', execTxs ctr len s = .next t ∧ execTxs ctr len s' = .next t' ∧ t'.tx = t.tx ∧ t'.result = t.result := by
  unfold execTxs txStart
  rw [hcfg, htx]
  split_ifs
  · exact ⟨_, _, rfl, rfl, htx, rfl⟩
  · exact ⟨_, _, rfl, rfl, htx, rfl⟩
  · exact ⟨_, _, rfl, rfl, congrArg canonicalIdle hcfg, rfl⟩
  · exact ⟨_, _, rfl, rfl, rfl, rfl⟩

/-- `TXD` reads the configuration and the transmit half only. -/
theorem execTxd_congr (b : Byte) (hcfg : s'.cfg = s.cfg) (htx : s'.tx = s.tx) :
    ∃ t t', execTxd b s = .next t ∧ execTxd b s' = .next t' ∧ t'.tx = t.tx ∧ t'.result = t.result := by
  unfold execTxd txByte
  rw [hcfg, htx]
  dsimp only
  split_ifs
  · exact ⟨_, _, rfl, rfl, htx, rfl⟩
  · exact ⟨_, _, rfl, rfl, congrArg canonicalIdle hcfg, rfl⟩
  · exact ⟨_, _, rfl, rfl, rfl, rfl⟩

/-- A word that is no transmit word depends on the configuration and the receive half only. -/
theorem afterWord_rx_congr {w : Word} (h : side w ≠ .transmit) (hcfg : s'.cfg = s.cfg) (hrx : s'.rx = s.rx) :
    (afterWord w s').rx = (afterWord w s).rx ∧ (afterWord w s').result = (afterWord w s).result := by
  cases hside : side w with
  | receive =>
    obtain ⟨i, hw, ⟨b, rfl⟩ | rfl⟩ := decode_of_receive hside
    · rw [afterWord_of_exec (s := s) hw rfl, afterWord_of_exec (s := s') hw rfl]
      exact rxByte_congr b hcfg hrx
    · rw [afterWord_of_exec (s := s) hw rfl, afterWord_of_exec (s := s') hw rfl]
      exact ⟨congrArg canonicalHunt hcfg, rfl⟩
  | transmit => exact absurd hside h
  | both =>
    rw [afterWord_of_both hside, afterWord_of_both hside]
    exact ⟨congrArg canonicalHunt hcfg, rfl⟩
  | neither =>
    obtain ⟨e, hw⟩ := afterWord_of_neither hside
    rw [hw, hw]
    exact ⟨hrx, rfl⟩

/-- A word that is no receive word depends on the configuration and the transmit half only. -/
theorem afterWord_tx_congr {w : Word} (h : side w ≠ .receive) (hcfg : s'.cfg = s.cfg) (htx : s'.tx = s.tx) :
    (afterWord w s').tx = (afterWord w s).tx ∧ (afterWord w s').result = (afterWord w s).result := by
  cases hside : side w with
  | receive => exact absurd hside h
  | transmit =>
    obtain ⟨i, hw, ⟨ctr, len, rfl⟩ | ⟨b, rfl⟩ | rfl⟩ := decode_of_transmit hside
    · obtain ⟨t, t', hrun, hrun', hsame⟩ := execTxs_congr ctr len hcfg htx
      rwa [afterWord_of_exec hw hrun, afterWord_of_exec hw hrun']
    · obtain ⟨t, t', hrun, hrun', hsame⟩ := execTxd_congr b hcfg htx
      rwa [afterWord_of_exec hw hrun, afterWord_of_exec hw hrun']
    · rw [afterWord_of_exec (s := s) hw rfl, afterWord_of_exec (s := s') hw rfl]
      exact ⟨congrArg canonicalIdle hcfg, rfl⟩
  | both =>
    rw [afterWord_of_both hside, afterWord_of_both hside]
    exact ⟨congrArg canonicalIdle hcfg, rfl⟩
  | neither =>
    obtain ⟨e, hw⟩ := afterWord_of_neither hside
    rw [hw, hw]
    exact ⟨htx, rfl⟩

end

/-! ### Sequences as each half sees them -/

/-- The events of a sequence other than `NONE` (R61). -/
def deliveriesOf (ws : List Word) (s : State) : List Event := ((resultsOf ws s).map Result.evt).filter (· ≠ .none)

/-- The bytes a sequence emits (R54). -/
def streamOf (ws : List Word) (s : State) : List Byte := (resultsOf ws s).flatMap Result.tx

theorem run_deliveries {ws : List Word} {s : State} {r : Run} (h : run ws s = some r) :
    r.deliveries = deliveriesOf ws s := by
  rw [run_eq] at h; cases h; rfl

theorem run_txStream {ws : List Word} {s : State} {r : Run} (h : run ws s = some r) : r.txStream = streamOf ws s := by
  rw [run_eq] at h; cases h; rfl

theorem deliveriesOf_cons {w : Word} {s : State} {r : Result} (h : (afterWord w s).result = some r) (ws : List Word) :
    deliveriesOf (w :: ws) s = [r.evt].filter (· ≠ .none) ++ deliveriesOf ws (afterWord w s) := by
  rw [deliveriesOf, resultsOf, h, Option.toList_some, List.map_append, List.filter_append]
  rfl

theorem streamOf_cons {w : Word} {s : State} {r : Result} (h : (afterWord w s).result = some r) (ws : List Word) :
    streamOf (w :: ws) s = r.tx ++ streamOf ws (afterWord w s) := by
  simp [streamOf, resultsOf, h]

theorem afterWord_result (w : Word) (s : State) : ∃ r, (afterWord w s).result = some r := by
  obtain ⟨t, r, h, hr, -⟩ := runWord_next w s
  cases h.symm.trans (runWord_eq w s)
  exact ⟨r, hr⟩

/-- The receive half and the events of a sequence are those of its receive words and `RST`s alone. -/
theorem finalOf_rx_deliveriesOf (ws : List Word) {s s' : State} (hcfg : s'.cfg = s.cfg) (hrx : s'.rx = s.rx) :
    (finalOf ws s').rx = (finalOf (receiveWords ws) s).rx ∧ deliveriesOf ws s' = deliveriesOf (receiveWords ws) s := by
  induction ws generalizing s s' with
  | nil => exact ⟨hrx, rfl⟩
  | cons w ws ih =>
    by_cases hw : side w = .receive ∨ side w = .both
    · have hkeep : receiveWords (w :: ws) = w :: receiveWords ws := List.filter_cons_of_pos (by simpa using hw)
      have hside : side w ≠ .transmit := by rcases hw with hw | hw <;> simp [hw]
      obtain ⟨hrx', hresult⟩ := afterWord_rx_congr hside hcfg hrx
      obtain ⟨r, hr⟩ := afterWord_result w s
      obtain ⟨hfinal, hevents⟩ := ih (by simpa using hcfg) hrx'
      rw [hkeep, deliveriesOf_cons hr, deliveriesOf_cons (hresult.trans hr), hevents]
      exact ⟨hfinal, rfl⟩
    · have hdrop : receiveWords (w :: ws) = receiveWords ws := List.filter_cons_of_neg (by simpa using hw)
      obtain ⟨hreceive, hboth⟩ := not_or.mp hw
      obtain ⟨hrx', r, hr, hevt⟩ := afterWord_rx_evt hreceive hboth s'
      obtain ⟨hfinal, hevents⟩ := ih (s' := afterWord w s') (by simpa using hcfg) (hrx'.trans hrx)
      rw [hdrop, deliveriesOf_cons hr, hevt, hevents]
      exact ⟨hfinal, rfl⟩

/-- The transmit half and the transmit stream of a sequence are those of its transmit words and `RST`s alone. -/
theorem finalOf_tx_streamOf (ws : List Word) {s s' : State} (hcfg : s'.cfg = s.cfg) (htx : s'.tx = s.tx) :
    (finalOf ws s').tx = (finalOf (transmitWords ws) s).tx ∧ streamOf ws s' = streamOf (transmitWords ws) s := by
  induction ws generalizing s s' with
  | nil => exact ⟨htx, rfl⟩
  | cons w ws ih =>
    by_cases hw : side w = .transmit ∨ side w = .both
    · have hkeep : transmitWords (w :: ws) = w :: transmitWords ws := List.filter_cons_of_pos (by simpa using hw)
      have hside : side w ≠ .receive := by rcases hw with hw | hw <;> simp [hw]
      obtain ⟨htx', hresult⟩ := afterWord_tx_congr hside hcfg htx
      obtain ⟨r, hr⟩ := afterWord_result w s
      obtain ⟨hfinal, hstream⟩ := ih (by simpa using hcfg) htx'
      rw [hkeep, streamOf_cons hr, streamOf_cons (hresult.trans hr), hstream]
      exact ⟨hfinal, rfl⟩
    · have hdrop : transmitWords (w :: ws) = transmitWords ws := List.filter_cons_of_neg (by simpa using hw)
      obtain ⟨htransmit, hboth⟩ := not_or.mp hw
      obtain ⟨htx', r, hr, hbytes⟩ := afterWord_tx_bytes htransmit hboth s'
      obtain ⟨hfinal, hstream⟩ := ih (s' := afterWord w s') (by simpa using hcfg) (htx'.trans htx)
      rw [hdrop, streamOf_cons hr, hbytes, hstream]
      exact ⟨hfinal, rfl⟩

theorem receiveWords_append (ws vs : List Word) : receiveWords (ws ++ vs) = receiveWords ws ++ receiveWords vs :=
  List.filter_append ..

theorem transmitWords_append (ws vs : List Word) : transmitWords (ws ++ vs) = transmitWords ws ++ transmitWords vs :=
  List.filter_append ..

/-! ### The words of `feed` -/

/-- The fields of a format B word (R82). -/
theorem fields_of_formatB {w : Word} {op : Nat} {b : Byte} (h : w.toNat = op * 2 ^ 28 + b.toNat) :
    (opField w).toNat = op ∧ reservedB w = 0 ∧ bField w = b := by
  have hb : b.toNat < 2 ^ 8 := b.isLt
  rw [opField_toNat, reservedB_eq_zero_iff, bField_eq, BitVec.toNat_eq, BitVec.toNat_ofNat]
  omega

/-- The fields of a format S word (R83). -/
theorem fields_of_formatS {w : Word} {op : Nat} {ctr : Byte} {len : Half}
    (h : w.toNat = op * 2 ^ 28 + ctr.toNat * 2 ^ 16 + len.toNat) :
    (opField w).toNat = op ∧ reservedS w = 0 ∧ ctrField w = ctr ∧ lenField w = len := by
  have hctr : ctr.toNat < 2 ^ 8 := ctr.isLt
  have hlen : len.toNat < 2 ^ 16 := len.isLt
  rw [opField_toNat, reservedS_eq_zero_iff, ctrField_eq, lenField_eq, BitVec.toNat_eq, BitVec.toNat_eq,
    BitVec.toNat_ofNat, BitVec.toNat_ofNat]
  omega

/-- A word built by the encoder decodes to its instruction. -/
theorem decode_encode (i : Instr) : decode (encode i) = .instr i := by
  cases i with
  | nop => decide
  | rxb b =>
    obtain ⟨hop, hreserved, hb⟩ := fields_of_formatB (encode_toNat (.rxb b))
    simp only [decode, hop, decodeB, hreserved, if_true, hb]
  | rxa => decide
  | txs ctr len =>
    obtain ⟨hop, hreserved, hctr, hlen⟩ := fields_of_formatS (encode_toNat (.txs ctr len))
    simp only [decode, hop, decodeS, hreserved, if_true, hctr, hlen]
  | txd b =>
    obtain ⟨hop, hreserved, hb⟩ := fields_of_formatB (encode_toNat (.txd b))
    simp only [decode, hop, decodeB, hreserved, if_true, hb]
  | txa => decide
  | rst => decide

theorem side_of_mem_feedWords {l : List Byte} {w : Word} (h : w ∈ feedWords l) : side w = .receive := by
  obtain ⟨b, -, rfl⟩ := List.mem_map.mp h
  simp [side, decode_encode]

theorem receiveWords_feedWords (l : List Byte) : receiveWords (feedWords l) = feedWords l :=
  List.filter_eq_self.mpr fun w hw => by simp [side_of_mem_feedWords hw]

theorem transmitWords_feedWords (l : List Byte) : transmitWords (feedWords l) = [] :=
  List.filter_eq_nil_iff.mpr fun w hw => by simp [side_of_mem_feedWords hw]

theorem feedWords_append (a b : List Byte) : feedWords (a ++ b) = feedWords a ++ feedWords b := List.map_append

/-! ### Two words in either order -/

/-- Two words run in the order `w`, `w'` answer `a`, `a'` and end where the order `w'`, `w` ends, which answers `a'`, `a`. -/
def CommuteAt (w w' : Word) (s : State) (a a' : Result) : Prop :=
  (afterWord w s).result = some a ∧ (afterWord w' (afterWord w s)).result = some a' ∧
  (afterWord w' s).result = some a' ∧ (afterWord w (afterWord w' s)).result = some a ∧
  (afterWord w' (afterWord w s)).rx = (afterWord w (afterWord w' s)).rx ∧
  (afterWord w' (afterWord w s)).tx = (afterWord w (afterWord w' s)).tx

/-- A receive and a transmit word commute: neither writes what the other reads. -/
theorem commuteAt_of_receive_of_transmit {w w' : Word} (h : side w = .receive) (h' : side w' = .transmit) (s : State) :
    ∃ a a', a.tx = [] ∧ a'.evt = .none ∧ CommuteAt w w' s a a' := by
  obtain ⟨htx, a, ha, hbytes⟩ := afterWord_tx_bytes (w := w) (by simp [h]) (by simp [h]) s
  obtain ⟨hrx, a', ha', hevt⟩ := afterWord_rx_evt (w := w') (by simp [h']) (by simp [h']) s
  have hrx_after := (afterWord_rx_evt (w := w') (by simp [h']) (by simp [h']) (afterWord w s)).1
  have htx_after := (afterWord_tx_bytes (w := w) (by simp [h]) (by simp [h]) (afterWord w' s)).1
  obtain ⟨hrx_congr, hresult⟩ := afterWord_rx_congr (w := w) (by simp [h]) (afterWord_cfg w' s) hrx
  obtain ⟨htx_congr, hresult'⟩ := afterWord_tx_congr (w := w') (by simp [h']) (afterWord_cfg w s) htx
  exact ⟨a, a', hbytes, hevt, ha, hresult'.trans ha', ha', hresult.trans ha, hrx_after.trans hrx_congr.symm,
    htx_congr.trans htx_after.symm⟩

/-- `RST` commutes with a word of neither half and with itself, and answers neither an event nor a byte. -/
theorem commuteAt_rst {w w' : Word} (h : side w = .both) (h' : side w' = .neither ∨ w' = w) (s : State) :
    ∃ a a', a.tx = [] ∧ a.evt = .none ∧ CommuteAt w w' s a a' := by
  obtain h' | rfl := h'
  · obtain ⟨e, hw'⟩ := afterWord_of_neither h'
    refine ⟨⟨.ok, .none, []⟩, ⟨e, .none, []⟩, rfl, rfl, ?_⟩
    simp [CommuteAt, hw', afterWord_of_both h]
  · refine ⟨⟨.ok, .none, []⟩, ⟨.ok, .none, []⟩, rfl, rfl, ?_⟩
    simp [CommuteAt, afterWord_of_both h]

/-- Runs of two commuting words, one of which gives no event and one of which emits nothing. -/
theorem CommuteAt.runs {w w' : Word} {s : State} {a a' : Result} (h : CommuteAt w w' s a a') (hbytes : a.tx = [])
    (hevt : a.evt = .none ∨ a'.evt = .none) :
    ∃ r r' x x', run [w, w'] s = some r ∧ run [w', w] s = some r' ∧ r.results = [x, x'] ∧ r'.results = [x', x] ∧
      r.final.cfg = r'.final.cfg ∧ r.final.rx = r'.final.rx ∧ r.final.tx = r'.final.tx ∧
      r.deliveries = r'.deliveries ∧ r.txStream = r'.txStream := by
  obtain ⟨hw, hw', hv', hv, hrx, htx⟩ := h
  have hresults : resultsOf [w, w'] s = [a, a'] := by simp [resultsOf, hw, hw']
  have hresults' : resultsOf [w', w] s = [a', a] := by simp [resultsOf, hv, hv']
  refine ⟨_, _, a, a', run_eq _ _, run_eq _ _, hresults, hresults', by simp, hrx, htx, ?_, ?_⟩
  · simp only [Run.deliveries, Run.events, hresults, hresults']
    rcases hevt with hevt | hevt <;> simp [hevt, List.filter_cons]
  · simp [Run.txStream, hresults, hresults', hbytes]

/-! ### The payload buffer -/

theorem RxHalf.Inv.of_csum {cfg : Config} {rx : RxHalf} (h : rx.Inv cfg) (hphase : rx.phase = .csum) :
    ∃ (ctr : Byte) (n : Nat) (p : List Byte), n ≤ cfg.maxPayload ∧ p.length = n ∧
      rx = ⟨.csum, ctr, lenReg cfg n, lenReg cfg n, cfg.ck.fold ([ctr] ++ lenbytes cfg n ++ p), Memory.ofBytes p⟩ := by
  simp only [RxHalf.Inv, hphase] at h
  exact ⟨rx.ctr, h⟩

/-- In phase `HUNT` a byte changes no entry of `RX_BUF`. -/
theorem rxByte_buf_of_hunt {b : Byte} {s : State} (h : s.rx.phase = .hunt) : (rxByte b s).rx.buf = s.rx.buf := by
  rw [rxByte_hunt h, rxHunt]
  split_ifs <;> rfl

/-- In phase `DATA` a byte is stored at `rxStoreIndex`, and the half does not return to `HUNT`. -/
theorem rxByte_buf_of_data {b : Byte} {s : State} (h : s.rx.phase = .data) :
    (rxByte b s).rx.buf = memWrite s.cfg s.rx.buf (rxStoreIndex s) b ∧ (rxByte b s).rx.phase ≠ .hunt := by
  rw [rxByte_data h]
  refine ⟨rfl, ?_⟩
  show (if s.rx.idx.toNat + 1 = s.rx.len.toNat then RxPhase.csum else .data) ≠ .hunt
  split_ifs <;> simp

/-- Outside `DATA` the buffer is kept, or emptied on a return to `HUNT`. -/
theorem RxStep.buf_of_not_data {cfg : Config} {rx rx' : RxHalf} (h : RxStep cfg rx rx') (hphase : rx.phase ≠ .data) :
    (rx'.buf = rx.buf ∧ (rx'.phase = .hunt → rx.phase = .hunt)) ∨ (rx'.buf = [] ∧ rx'.phase = .hunt) := by
  cases h with
  | keep => exact .inl ⟨rfl, id⟩
  | hunt => exact .inr ⟨rfl, rfl⟩
  | marker => exact .inl ⟨rfl, nofun⟩
  | counter => exact .inl ⟨rfl, nofun⟩
  | lengthByte => exact .inl ⟨rfl, id⟩
  | lengthZero => exact .inl ⟨rfl, nofun⟩
  | lengthDone => exact .inl ⟨rfl, nofun⟩
  | payload b hdata => exact absurd hdata hphase

theorem get?_memWrite_other (cfg : Config) (m : Memory) {a a' : Nat} (b : Byte) (h : a' ≠ a) :
    Memory.get? (memWrite cfg m a b) a' = Memory.get? m a' := by
  unfold memWrite
  split_ifs
  · exact Memory.get?_put_other m b h
  · rfl

theorem get?_memWrite_same (cfg : Config) (m : Memory) {a : Nat} (b : Byte) (h : a < cfg.maxPayload) :
    Memory.get? (memWrite cfg m a b) a = some b := by
  simp [memWrite, h]

/-- The canonical form and the index range are kept: the only store is `MemWrite`. -/
theorem RxStep.bufOk {cfg : Config} {rx rx' : RxHalf} (h : RxStep cfg rx rx') (hwf : Memory.wf rx.buf)
    (hrange : ∀ c ∈ rx.buf, c.1 < cfg.maxPayload) :
    Memory.wf rx'.buf ∧ ∀ c ∈ rx'.buf, c.1 < cfg.maxPayload := by
  cases h with
  | keep => exact ⟨hwf, hrange⟩
  | hunt => exact ⟨.nil, nofun⟩
  | marker => exact ⟨hwf, hrange⟩
  | counter => exact ⟨hwf, hrange⟩
  | lengthByte => exact ⟨hwf, hrange⟩
  | lengthZero => exact ⟨hwf, hrange⟩
  | lengthDone => exact ⟨hwf, hrange⟩
  | payload b => exact ⟨memWrite_wf cfg hwf _ b, memWrite_inRange cfg hrange _ b⟩

/-! ### The obligations -/

/-- Settles O11: a run is the two recursions `resultsOf` and `finalOf`, and both split along an append. -/
theorem sequencesAreFoldsOfSteps : Obligations.SequencesAreFoldsOfSteps := by
  intro s
  refine ⟨run_eq [] s, fun w t h => ?_, fun ws ws' => ?_⟩
  · have ht : (afterWord w s).setInput [] = t := by
      rw [← afterWord_setInput]
      exact Host.Outcome.next.inj ((runWord_eq w _).symm.trans h)
    subst ht
    simp [run_eq, resultsOf, finalOf]
  · refine ⟨_, _, run_eq ws s, run_eq ws' _, ?_, length_resultsOf ws s⟩
    simp only [run_eq, resultsOf_append, finalOf_append, resultsOf_setInput, finalOf_setInput]
    rfl

/-- Settles O16: a transmit operation is refused, or writes the transmit half only. -/
theorem transmitOperationsLeaveTheReceiveHalf : Obligations.TransmitOperationsLeaveTheReceiveHalf := by
  intro s t i hi h
  obtain ⟨e, rfl⟩ | ⟨tx, bytes, rfl⟩ := exec_transmit_cases hi h
  · exact ⟨rfl, fun _ => rfl, rfl, rfl, _, rfl, rfl, fun _ => ⟨rfl, rfl⟩⟩
  · exact ⟨rfl, fun _ => rfl, rfl, rfl, _, rfl, rfl, fun hresp => absurd rfl hresp⟩

/-- Settles O22: a receive operation writes the receive half and its result only. -/
theorem receiveOperationsLeaveTheTransmitHalf : Obligations.ReceiveOperationsLeaveTheTransmitHalf := by
  intro s t i hi h
  obtain ⟨rx, e, rfl⟩ := exec_receive_eq hi h
  exact ⟨rfl, rfl, rfl, _, rfl, rfl, rfl⟩

/-- Settles O23: `DATA` stores by `MemWrite`; outside `DATA` the buffer is kept, or emptied on a return to `HUNT`. -/
theorem rxbStoresOneByteAtItsIndex : Obligations.RxbStoresOneByteAtItsIndex := by
  intro s t b h
  cases h
  refine ⟨fun hdata a ha => ?_, fun hdata hrange => ?_, fun hdata hstay a => ?_, fun hopen hreturn => ?_⟩
  · rw [(rxByte_buf_of_data hdata).1]
    exact get?_memWrite_other _ _ b ha
  · rw [(rxByte_buf_of_data hdata).1, (exec_change (i := .rxb b) rfl).cfg]
    exact ⟨get?_memWrite_same _ _ b hrange, memRead_memWrite_same _ _ b hrange⟩
  · obtain hhunt | hstay := hstay
    · rw [rxByte_buf_of_hunt hhunt]
    · obtain ⟨hbuf, -⟩ | ⟨-, hreturn⟩ := (rxByte_rxStep b s).buf_of_not_data hdata
      · rw [hbuf]
      · exact absurd hreturn hstay
  · have hdata : s.rx.phase ≠ .data := fun hdata => (rxByte_buf_of_data hdata).2 hreturn
    obtain ⟨-, hkept⟩ | ⟨hbuf, -⟩ := (rxByte_rxStep b s).buf_of_not_data hdata
    · exact absurd (hkept hreturn) hopen
    · exact hbuf

/-- Settles O24: on the lines of R37's table the registers hold the numbers `p.length` and `n`, and the buffer holds `p`. -/
theorem bufferAccessesAreInRange : Obligations.BufferAccessesAreInRange := by
  intro s hinv
  have hread {n : Nat} (h : n ≤ s.cfg.maxPayload) := toNat_lenReg_of_le_maxPayload hinv.fits h
  refine ⟨fun hdata => ?_, fun hcsum => ?_⟩
  · obtain ⟨ctr, n, p, -, hfits, hp, hrx⟩ := hinv.rx.of_data hdata
    rw [rxStoreIndex, hrx]
    dsimp only
    rw [hread hfits, hread (hp.le.trans hfits)]
    exact ⟨hp, hfits⟩
  · obtain ⟨ctr, n, p, hfits, hp, hrx⟩ := hinv.rx.of_csum hcsum
    rw [hrx]
    dsimp only
    rw [hread hfits]
    refine ⟨hfits, fun a ha => ⟨p[a], ?_⟩⟩
    rw [Memory.get?_ofBytes, List.getElem?_eq_getElem]

/-- Settles O29: the frames and the dependence of a word by its half, and the commutations that follow from them. `RST`
does not commute with the marker `0x5A`, which opens a candidate, nor with a `TXS` that opens a frame. -/
theorem halvesShareNothing : Obligations.HalvesShareNothing := by
  refine ⟨fun s s' w h hcfg hrx => ?_, fun s s' w h hcfg htx => ?_, fun s w h => ?_, fun s t w r h hr hresp => ?_,
    fun s w w' h => ?_, ?_, ?_⟩
  · obtain ⟨htx, r, hr, hbytes⟩ := afterWord_tx_bytes (w := w) (by simp [h]) (by simp [h]) s
    obtain ⟨htx', -⟩ := afterWord_tx_bytes (w := w) (by simp [h]) (by simp [h]) s'
    obtain ⟨hrx', hresult⟩ := afterWord_rx_congr (w := w) (by simp [h]) hcfg hrx
    exact ⟨_, _, r, runWord_eq w s, runWord_eq w s', hrx'.symm, htx, htx', hr, hresult.trans hr, hbytes⟩
  · obtain ⟨hrx, r, hr, hevt⟩ := afterWord_rx_evt (w := w) (by simp [h]) (by simp [h]) s
    obtain ⟨hrx', -⟩ := afterWord_rx_evt (w := w) (by simp [h]) (by simp [h]) s'
    obtain ⟨htx', hresult⟩ := afterWord_tx_congr (w := w) (by simp [h]) hcfg htx
    exact ⟨_, _, r, runWord_eq w s, runWord_eq w s', htx'.symm, hrx, hrx', hr, hresult.trans hr, hevt⟩
  · obtain ⟨e, hw⟩ := afterWord_of_neither h
    exact ⟨_, runWord_eq w s, by rw [hw]; rfl, by rw [hw]; rfl⟩
  · cases (runWord_eq w s).symm.trans h
    obtain ⟨e, hw⟩ := eq_refuse_of_resp_ne_ok hr hresp
    rw [hw]
    exact ⟨rfl, rfl⟩
  · obtain ⟨hw, hw'⟩ | ⟨rfl, hw'⟩ := h
    · obtain ⟨a, a', hbytes, hevt, hcommute⟩ := commuteAt_of_receive_of_transmit hw hw' s
      exact hcommute.runs hbytes (.inr hevt)
    · obtain ⟨a, a', hbytes, hevt, hcommute⟩ := commuteAt_rst (w := encode .rst) (by decide) hw' s
      exact hcommute.runs hbytes (.inl hevt)
  · exact ⟨State.reset, encode (.rxb 0x5A), _, _, by decide, run_eq _ _, run_eq _ _, by decide⟩
  · exact ⟨State.reset, encode (.txs 0 1), _, _, by decide, run_eq _ _, run_eq _ _, by decide⟩

/-- Settles O30: the receive half sees of the cut sequence the words of `feed(a ++ b)` alone, and the transmit half those of
`ws` alone. -/
theorem fragmentationIsInvisible : Obligations.FragmentationIsInvisible := by
  intro s a b ws hws
  have hreceive : receiveWords ws = [] := List.filter_eq_nil_iff.mpr fun w hw => by
    obtain h | rfl := hws w hw
    · simp [h]
    · decide
  have hfed : receiveWords (feedWords a ++ ws ++ feedWords b) = feedWords (a ++ b) := by
    simp only [receiveWords_append, receiveWords_feedWords, hreceive, List.append_nil, feedWords_append]
  have hsent : transmitWords (feedWords a ++ ws ++ feedWords b) = transmitWords ws := by
    simp only [transmitWords_append, transmitWords_feedWords, List.nil_append, List.append_nil]
  obtain ⟨hrx, hevents⟩ := finalOf_rx_deliveriesOf (feedWords a ++ ws ++ feedWords b) (s := s) rfl rfl
  obtain ⟨htx, hstream⟩ := finalOf_tx_streamOf (feedWords a ++ ws ++ feedWords b) (s := s) rfl rfl
  obtain ⟨htx_ws, hstream_ws⟩ := finalOf_tx_streamOf ws (s := s) rfl rfl
  obtain ⟨htx_feed, -⟩ := finalOf_tx_streamOf (feedWords (a ++ b)) (s := s) rfl rfl
  rw [hfed] at hrx hevents
  rw [hsent, ← htx_ws] at htx
  rw [hsent, ← hstream_ws] at hstream
  rw [transmitWords_feedWords] at htx_feed
  have hwhole := run_eq (feedWords (a ++ b)) s
  have hcut := run_eq (feedWords a ++ ws ++ feedWords b) s
  have hsend := run_eq ws s
  exact ⟨_, _, _, hwhole, hcut, hsend, by simp, hrx, htx, htx_feed,
    (run_deliveries hcut).trans (hevents.trans (run_deliveries hwhole).symm),
    (run_txStream hcut).trans (hstream.trans (run_txStream hsend).symm)⟩

/-- Settles O34: the reset buffer lists nothing, and a step changes the buffer as `RxStep` says. -/
theorem stepKeepsTheBufferCanonical : Obligations.StepKeepsTheBufferCanonical := by
  refine ⟨fun cfg => ⟨.nil, nofun⟩, fun s t ⟨hwf, hrange⟩ hstep => ?_⟩
  have hchange := step_change hstep
  unfold State.BufOk
  rw [hchange.cfg]
  exact hchange.rx.bufOk hwf hrange

end Sys2Proof.Machine
end

section
/-! PROOFS. Family 30_encoding.md: the words of the operations (O5, O6, O7, O8), the lines of text (O56), the length field
(O39) and the layout of a frame (O40). The decoder is inverted once, by format, in `decode_eq_instr_iff`; the rows of the
opcode table and the assembler are then compared with the encoder only. -/

namespace Sys2Proof.Machine

/-! ### The decoder inverted, by format -/

section

variable {w : Word} {i : Instr}

/-- A format Z word is its operation code and nothing else (R81). -/
theorem toNat_of_decodeZ {j : Instr} (h : decodeZ j w = .instr i) : i = j ∧ w.toNat = (opField w).toNat * 2 ^ 28 := by
  unfold decodeZ at h
  split_ifs at h with hreserved
  rw [reservedZ_eq_zero_iff] at hreserved
  rw [opField_toNat]
  exact ⟨(Decoded.instr.inj h).symm, by omega⟩

/-- A format B word is its operation code and its byte (R82). -/
theorem toNat_of_decodeB {j : Byte → Instr} (h : decodeB j w = .instr i) :
    ∃ b, i = j b ∧ w.toNat = (opField w).toNat * 2 ^ 28 + b.toNat := by
  unfold decodeB at h
  split_ifs at h with hreserved
  rw [reservedB_eq_zero_iff] at hreserved
  refine ⟨bField w, (Decoded.instr.inj h).symm, ?_⟩
  rw [opField_toNat, bField_eq, BitVec.toNat_ofNat]
  omega

/-- A format S word is its operation code, its counter and its length (R83). -/
theorem toNat_of_decodeS {j : Byte → Half → Instr} (h : decodeS j w = .instr i) :
    ∃ ctr len, i = j ctr len ∧ w.toNat = (opField w).toNat * 2 ^ 28 + ctr.toNat * 2 ^ 16 + len.toNat := by
  unfold decodeS at h
  split_ifs at h with hreserved
  rw [reservedS_eq_zero_iff] at hreserved
  refine ⟨ctrField w, lenField w, (Decoded.instr.inj h).symm, ?_⟩
  rw [opField_toNat, ctrField_eq, lenField_eq, BitVec.toNat_ofNat, BitVec.toNat_ofNat]
  omega

theorem encode_eq_of_toNat_eq (h : w.toNat = (encode i).toNat) : encode i = w := BitVec.eq_of_toNat_eq h.symm

/-- A word that decodes to an instruction is that instruction's word. -/
theorem encode_of_decode (h : decode w = .instr i) : encode i = w := by
  refine encode_eq_of_toNat_eq (.trans ?_ (encode_toNat i).symm)
  unfold decode at h
  split at h
  case h_1 hop => obtain ⟨rfl, hw⟩ := toNat_of_decodeZ h; rw [hw, hop, Nat.zero_mul]
  case h_2 hop => obtain ⟨b, rfl, hw⟩ := toNat_of_decodeB h; rw [hw, hop]
  case h_3 hop => obtain ⟨rfl, hw⟩ := toNat_of_decodeZ h; rw [hw, hop]
  case h_4 hop => obtain ⟨ctr, len, rfl, hw⟩ := toNat_of_decodeS h; rw [hw, hop]
  case h_5 hop => obtain ⟨b, rfl, hw⟩ := toNat_of_decodeB h; rw [hw, hop]
  case h_6 hop => obtain ⟨rfl, hw⟩ := toNat_of_decodeZ h; rw [hw, hop]
  case h_7 hop => obtain ⟨rfl, hw⟩ := toNat_of_decodeZ h; rw [hw, hop]
  case h_8 => cases h

/-- Each instruction has exactly one word. -/
theorem decode_eq_instr_iff : decode w = .instr i ↔ encode i = w :=
  ⟨encode_of_decode, fun h => h ▸ decode_encode i⟩

theorem decode_of_toNat_eq (h : w.toNat = (encode i).toNat) : decode w = .instr i :=
  decode_eq_instr_iff.mpr (encode_eq_of_toNat_eq h)

end

/-! ### The rows of the opcode table (R80) -/

/-- The word of every instruction matches the row of its mnemonic. -/
theorem encode_matches_row (i : Instr) : Laws.EncodeMatchesRow.Statement i := by
  cases i with
  | nop => exact Laws.EncodeMatchesRow.nop
  | rxb b => exact Laws.EncodeMatchesRow.rxb b
  | rxa => exact Laws.EncodeMatchesRow.rxa
  | txs ctr len => exact Laws.EncodeMatchesRow.txs ctr len
  | txd b => exact Laws.EncodeMatchesRow.txd b
  | txa => exact Laws.EncodeMatchesRow.txa
  | rst => exact Laws.EncodeMatchesRow.rst

/-- No two rows have one mnemonic. -/
theorem row_eq_of_mnemonic_eq : ∀ row ∈ opcodeTable, ∀ row' ∈ opcodeTable, row.1 = row'.1 → row = row' := by decide

/-- A mask that ends in `k` zeros cuts off the low `k` bits. -/
theorem toNat_and_shiftLeft_allOnes (w : Word) (k : Nat) :
    (w &&& (BitVec.allOnes 32 <<< k)).toNat = w.toNat / 2 ^ k * 2 ^ k := by
  have h : w &&& (BitVec.allOnes 32 <<< k) = (w >>> k) <<< k := by
    ext i hi
    by_cases hk : i < k
    · simp [hk]
    · simp [-BitVec.reduceAllOnes, hk, hi, show k + (i - k) = i by omega]
  rw [h, BitVec.toNat_shiftLeft, BitVec.toNat_ushiftRight, Nat.shiftRight_eq_div_pow, Nat.shiftLeft_eq]
  exact Nat.mod_eq_of_lt ((Nat.div_mul_le_self ..).trans_lt w.isLt)

section

variable {w m : Word} {op : Nat}

/-- The mask of format B leaves `b` free. -/
theorem toNat_of_matches_formatB (hm : m.toNat = op * 2 ^ 28) (h : w &&& 0xFFFFFF00 = m) :
    w.toNat = op * 2 ^ 28 + (BitVec.ofNat 8 w.toNat).toNat := by
  have hcut := toNat_and_shiftLeft_allOnes w 8
  rw [show BitVec.allOnes 32 <<< 8 = 0xFFFFFF00 by decide, h] at hcut
  rw [BitVec.toNat_ofNat]
  omega

/-- The mask of format S leaves `ctr` and `len` free. -/
theorem toNat_of_matches_formatS (hm : m.toNat = op * 2 ^ 28) (h : w &&& 0xFF000000 = m) :
    w.toNat = op * 2 ^ 28 + (BitVec.ofNat 8 (w.toNat / 2 ^ 16)).toNat * 2 ^ 16 + (BitVec.ofNat 16 w.toNat).toNat := by
  have hcut := toNat_and_shiftLeft_allOnes w 24
  rw [show BitVec.allOnes 32 <<< 24 = 0xFF000000 by decide, h] at hcut
  rw [BitVec.toNat_ofNat, BitVec.toNat_ofNat]
  omega

end

/-- A word that matches a row is the word of an instruction of that row. -/
theorem exists_encode_of_matches (w : Word) :
    ∀ row ∈ opcodeTable, w &&& row.2.2 = row.2.1 → ∃ i, encode i = w ∧ mnemonic i = row.1 := by
  have formatZ {m : Word} {i : Instr} (hm : encode i = m) (h : w &&& 0xFFFFFFFF = m) : encode i = w :=
    hm.trans (h.symm.trans BitVec.and_allOnes)
  simp only [opcodeTable, List.forall_mem_cons]
  refine ⟨fun h => ⟨.nop, formatZ (by decide) h, rfl⟩, fun h => ⟨.rxb (BitVec.ofNat 8 w.toNat), ?_, rfl⟩,
    fun h => ⟨.rxa, formatZ (by decide) h, rfl⟩,
    fun h => ⟨.txs (BitVec.ofNat 8 (w.toNat / 2 ^ 16)) (BitVec.ofNat 16 w.toNat), ?_, rfl⟩,
    fun h => ⟨.txd (BitVec.ofNat 8 w.toNat), ?_, rfl⟩, fun h => ⟨.txa, formatZ (by decide) h, rfl⟩,
    fun h => ⟨.rst, formatZ (by decide) h, rfl⟩, nofun⟩
  all_goals refine encode_eq_of_toNat_eq (.trans ?_ (encode_toNat _).symm)
  · exact toNat_of_matches_formatB (op := 1) (by decide) h
  · exact toNat_of_matches_formatS (op := 3) (by decide) h
  · exact toNat_of_matches_formatB (op := 4) (by decide) h

/-- A word matches a row exactly when it decodes to an instruction of that row. -/
theorem matches_iff_decode (w : Word) (row : String × Word × Word) (hrow : row ∈ opcodeTable) :
    w &&& row.2.2 = row.2.1 ↔ ∃ i, decode w = .instr i ∧ mnemonic i = row.1 := by
  simp only [decode_eq_instr_iff]
  refine ⟨exists_encode_of_matches w row hrow, fun ⟨i, hw, hname⟩ => ?_⟩
  obtain ⟨row', hrow', hname', hmatch⟩ := encode_matches_row i
  obtain rfl := row_eq_of_mnemonic_eq row hrow row' hrow' (hname.symm.trans hname'.symm)
  exact hw ▸ hmatch

/-! ### The assembler's words (R87, R88) -/

theorem assemble_eq_some {l : AsmLine} (h : l.wf = true) : assemble l = some (asmWords l) := if_pos h

theorem asmRxb_toNat (b : Byte) : asmRxb b.toNat = encode (.rxb b) := by
  have hb : b.toNat < 2 ^ 8 := b.isLt
  simp only [BitVec.toNat_eq, encode_toNat, asmRxb, BitVec.toNat_ofNat]
  omega

theorem asmTxd_toNat (b : Byte) : asmTxd b.toNat = encode (.txd b) := by
  have hb : b.toNat < 2 ^ 8 := b.isLt
  simp only [BitVec.toNat_eq, encode_toNat, asmTxd, BitVec.toNat_ofNat]
  omega

theorem asmTxs_toNat (ctr : Byte) (len : Half) : asmTxs ctr.toNat len.toNat = encode (.txs ctr len) := by
  have hctr : ctr.toNat < 2 ^ 8 := ctr.isLt
  have hlen : len.toNat < 2 ^ 16 := len.isLt
  simp only [BitVec.toNat_eq, encode_toNat, asmTxs, BitVec.toNat_ofNat]
  omega

/-- The bytes of a list fit the operands of `txd` and `rxb`. -/
theorem all_toNat_lt (l : List Byte) : (l.map (·.toNat)).all (· < 256) = true := by
  simp only [List.all_map, List.all_eq_true, Function.comp_apply, decide_eq_true_eq]
  exact fun b _ => b.isLt

theorem map_asmRxb_toNat (l : List Byte) : (l.map (·.toNat)).map asmRxb = feedWords l := by
  rw [List.map_map]
  exact List.map_congr_left fun b _ => asmRxb_toNat b

/-- `send` assembles to the `TXS` of its list's length and a `TXD` for each byte (R88). -/
theorem asmWords_send (ctr : Byte) {p : List Byte} (h : p.length < 65536) :
    asmWords (.send ctr.toNat (p.map (·.toNat))) = sendWords ctr p := by
  have htxs : asmTxs ctr.toNat p.length = encode (.txs ctr (BitVec.ofNat 16 p.length)) := by
    rw [← asmTxs_toNat, BitVec.toNat_ofNat, Nat.mod_eq_of_lt h]
  rw [asmWords, sendWords, List.length_map, htxs, List.map_map]
  exact congrArg _ (List.map_congr_left fun b _ => asmTxd_toNat b)

/-! ### The length field (R73, R74) -/

section

variable {cfg : Config}

/-- The wire form of a length spells that length. -/
theorem lenval_lenbytes {n : Nat} (h : n < 2 ^ (8 * lenWidth cfg)) : lenval cfg (lenbytes cfg n) = some n := by
  unfold lenWidth at h
  unfold lenval lenbytes
  cases hw : cfg.lenBytes with
  | one => simp [hw] at h ⊢; omega
  | two =>
    cases hendian : cfg.lenEndian with
    | big => simp [hw, Nat.shiftRight_eq_div_pow] at h ⊢; omega
    | little => simp [hw, Nat.shiftRight_eq_div_pow] at h ⊢; omega

/-- On a whole length field `lenval` is `lenpartial`. -/
theorem lenval_eq_lenpartial {l : List Byte} (h : l.length = lenWidth cfg) : lenval cfg l = some (lenpartial cfg l) := by
  have hval := lenval_lenbytes (h ▸ lenpartial_lt cfg l)
  rwa [lenbytes_lenpartial h] at hval

theorem map_toNat_lenbytes_one {n : Nat} (hw : cfg.lenBytes = .one) (h : n < 2 ^ (8 * lenWidth cfg)) :
    (lenbytes cfg n).map (·.toNat) = [n] := by
  simp [lenWidth, lenbytes, hw] at h ⊢
  omega

theorem map_toNat_lenbytes_big {n : Nat} (hw : cfg.lenBytes = .two) (hendian : cfg.lenEndian = .big)
    (h : n < 2 ^ (8 * lenWidth cfg)) : (lenbytes cfg n).map (·.toNat) = [n / 256, n % 256] := by
  simp [lenWidth, lenbytes, hw, hendian, Nat.shiftRight_eq_div_pow] at h ⊢
  omega

theorem map_toNat_lenbytes_little {n : Nat} (hw : cfg.lenBytes = .two) (hendian : cfg.lenEndian = .little)
    (h : n < 2 ^ (8 * lenWidth cfg)) : (lenbytes cfg n).map (·.toNat) = [n % 256, n / 256] := by
  simp [lenWidth, lenbytes, hw, hendian, Nat.shiftRight_eq_div_pow] at h ⊢
  omega

theorem lenpartial_append_big (l : List Byte) (b : Byte) (h : cfg.lenEndian = .big) :
    lenpartial cfg (l ++ [b]) = (lenpartial cfg l <<< 8) ||| b.toNat := by
  rw [lenpartial_append_one, mergeLen, h]

theorem lenpartial_append_little (l : List Byte) (b : Byte) (h : cfg.lenEndian = .little) :
    lenpartial cfg (l ++ [b]) = lenpartial cfg l ||| (b.toNat <<< (8 * l.length)) := by
  rw [lenpartial_append_one, mergeLen, h]

/-- A one-byte length field is its byte, in either byte order. -/
theorem lenpartial_singleton (b : Byte) : lenpartial cfg [b] = b.toNat := by
  cases h : cfg.lenEndian <;> simp [lenpartial, mergeLens, mergeLen, h]

end

/-! ### The obligations -/

/-- Settles O7: the encoder's words decode to their instruction, and the decoder, inverted by format, gives no other. -/
theorem decodeInvertsEncode : Obligations.DecodeInvertsEncode :=
  ⟨decode_encode, fun _ _ => encode_of_decode⟩

/-- Settles O5: a word with the number of an instruction's word is that word. -/
theorem legalWordsDecodeToTheirOperation : Obligations.LegalWordsDecodeToTheirOperation := by
  intro w
  have byte {b : Nat} (h : b < 256) : (BitVec.ofNat 8 b).toNat = b :=
    (BitVec.toNat_ofNat ..).trans (Nat.mod_eq_of_lt h)
  have half {n : Nat} (h : n < 65536) : (BitVec.ofNat 16 n).toNat = n :=
    (BitVec.toNat_ofNat ..).trans (Nat.mod_eq_of_lt h)
  refine ⟨fun h => decode_of_toNat_eq h, fun b hb h => decode_of_toNat_eq (h.trans ?_), fun h => decode_of_toNat_eq h,
    fun ctr len hctr hlen h => decode_of_toNat_eq (h.trans ?_), fun b hb h => decode_of_toNat_eq (h.trans ?_),
    fun h => decode_of_toNat_eq h, fun h => decode_of_toNat_eq h⟩
  · simp only [encode_toNat, byte hb]
  · simp only [encode_toNat, byte hctr, half hlen]
  · simp only [encode_toNat, byte hb]

/-- Settles O6: a row is compared with the encoder; a word has one instruction, and rows differ in their mnemonics. -/
theorem opcodeTableRowsAgreeWithDecode : Obligations.OpcodeTableRowsAgreeWithDecode := by
  intro w
  have hrows := matches_iff_decode w
  refine ⟨hrows, fun row hrow row' hrow' hmatch hmatch' => ?_, fun hnone => ?_, fun ⟨e, he⟩ row hrow hmatch => ?_⟩
  · obtain ⟨i, hi, hname⟩ := (hrows row hrow).mp hmatch
    obtain ⟨j, hj, hname'⟩ := (hrows row' hrow').mp hmatch'
    cases hi.symm.trans hj
    exact row_eq_of_mnemonic_eq row hrow row' hrow' (hname.symm.trans hname')
  · cases hw : decode w with
    | illegal e => exact ⟨e, rfl⟩
    | instr i =>
      obtain ⟨row, hrow, -, hmatch⟩ := encode_matches_row i
      exact absurd (encode_of_decode hw ▸ hmatch) (hnone row hrow)
  · obtain ⟨i, hi, -⟩ := (hrows row hrow).mp hmatch
    cases he.symm.trans hi

/-- Settles O39: `lenpartial` is the value of a whole field, and its equations are those of `mergeLen`. -/
theorem lengthCodecRoundTrips : Obligations.LengthCodecRoundTrips := by
  intro cfg
  refine ⟨fun n hn => ⟨fun hw => map_toNat_lenbytes_one hw hn, fun hw he => map_toNat_lenbytes_big hw he hn,
      fun hw he => map_toNat_lenbytes_little hw he hn⟩, fun n => lenval_lenbytes,
    fun l hl => ⟨_, lenval_eq_lenpartial hl, lenbytes_lenpartial hl, rfl⟩, rfl,
    fun l b hl => ⟨?_, lenpartial_append_little l b⟩⟩
  rintro (hbig | hone)
  · exact lenpartial_append_big l b hbig
  · have hnil : l = [] := List.eq_nil_of_length_eq_zero (by simp only [lenWidth, hone] at hl; omega)
    rw [hnil, List.nil_append, lenpartial_singleton]
    simp [lenpartial, mergeLens]

/-- Settles O40: the fields of `frameBytes` by their lengths. -/
theorem encodedFramesHaveTheLayout : Obligations.EncodedFramesHaveTheLayout := by
  refine ⟨fun cfg payload ctr hfits => ?_, by decide⟩
  have hlen := length_lenbytes cfg payload.length
  have hhdr : hdr cfg = lenWidth cfg + 2 := Nat.add_comm ..
  refine ⟨frameBytes cfg payload ctr, _, frameEncode_eq_some_iff.mpr ⟨hfits, rfl⟩, rfl, rfl,
    length_frameBytes cfg payload ctr, rfl, rfl, ?_, ?_, ?_⟩
  · simp [frameBytes, coveredBytes, hlen]
  · simp [frameBytes, coveredBytes, hhdr, hlen]
  · have hcov : ([cfg.marker] ++ coveredBytes cfg ctr payload).length = hdr cfg + payload.length := by
      simp [coveredBytes, hhdr, hlen]
      omega
    exact hcov ▸ List.getElem?_concat_length

/-- Settles O56: the assembler's numbers are those of the encoder's words, and the operands of a byte or a half fit. -/
theorem linesAssembleToTheirWords : Obligations.LinesAssembleToTheirWords := by
  refine ⟨fun l => ?_, by decide, by decide, by decide, by decide, fun b => ⟨?_, ?_⟩, fun ctr len => ?_, fun w => ?_,
    fun ctr p hp => ?_, fun l => ?_⟩
  · simp [assemble]
  · rw [assemble_eq_some (l := .rxb _) (decide_eq_true b.isLt), asmWords, asmRxb_toNat]
  · rw [assemble_eq_some (l := .txd _) (decide_eq_true b.isLt), asmWords, asmTxd_toNat]
  · have hwf : AsmLine.wf (.txs ctr.toNat len.toNat) = true := by simpa [AsmLine.wf] using ⟨ctr.isLt, len.isLt⟩
    rw [assemble_eq_some hwf, asmWords, asmTxs_toNat]
  · rw [assemble_eq_some (l := .word _) (decide_eq_true w.isLt), asmWords, BitVec.ofNat_toNat, BitVec.setWidth_eq]
  · have hwf : AsmLine.wf (.send ctr.toNat (p.map (·.toNat))) = true := by
      simp only [AsmLine.wf, all_toNat_lt, List.length_map, Bool.and_true, Bool.and_eq_true, decide_eq_true_eq]
      exact ⟨ctr.isLt, hp⟩
    rw [assemble_eq_some hwf, asmWords_send ctr hp]
  · rw [assemble_eq_some (l := .feed _) (all_toNat_lt l), asmWords, map_asmRxb_toNat]

/-- Settles O8: the decoder evaluated on the fourteen words. -/
theorem specWordsDecodeAsWritten : Obligations.SpecWordsDecodeAsWritten := by
  unfold Obligations.SpecWordsDecodeAsWritten
  decide

end Sys2Proof.Machine
end

section
/-! PROOFS. Family 40_frame_functions.md: the four named checksums (O36, O37, O38), `encode` (O41) and `decode` (O42, O43,
O44, O45). `decode` is said once, against `encode`: after the marker in `decodeFromCounter_eq_frame_iff`, with stray bytes
before it in `frameDecode_eq_frame_iff`. What the checksum catches is said of a list and its checksum, for all frames. -/

namespace Sys2Proof

/-! ### The named checksums -/

theorem crcShift_toNat (r : Byte) :
    (crcShift r).toNat = if r.toNat / 128 = 1 then (r.toNat * 2 % 256) ^^^ 7 else r.toNat * 2 % 256 := by
  have hlt : r.toNat < 2 ^ 8 := r.isLt
  have hmsb : r.msb = true ↔ r.toNat / 128 = 1 := by
    rw [BitVec.msb_eq_decide, decide_eq_true_iff]
    omega
  simp only [crcShift, hmsb]
  split_ifs <;> simp [Nat.shiftLeft_eq]

/-- The bit shifted out comes back as bit 0, the constant term of the generator (R106). -/
theorem crcShift_getLsbD_zero (r : Byte) : (crcShift r).getLsbD 0 = r.msb := by
  unfold crcShift
  split_ifs with h <;> simp [h]

theorem crcShift_injective : Function.Injective crcShift := by
  intro a b h
  have hmsb : a.msb = b.msb := by rw [← crcShift_getLsbD_zero, h, crcShift_getLsbD_zero]
  have hlow : a <<< 1 = b <<< 1 := by
    unfold crcShift at h
    rw [hmsb] at h
    split_ifs at h
    · exact (BitVec.xor_left_inj _).mp h
    · exact h
  have ha : a.toNat < 2 ^ 8 := a.isLt
  have hb : b.toNat < 2 ^ 8 := b.isLt
  simp only [BitVec.msb_eq_decide, decide_eq_decide] at hmsb
  simp only [BitVec.toNat_eq, BitVec.toNat_shiftLeft, Nat.shiftLeft_eq] at hlow ⊢
  omega

theorem crcShifts_injective (n : Nat) : Function.Injective (crcShifts n) := by
  induction n with
  | zero => exact Function.injective_id
  | succ n ih => exact ih.comp crcShift_injective

theorem crcShifts_toNat {f : Nat → Nat} (hf : ∀ r, (crcShift r).toNat = f r.toNat) (n : Nat) (r : Byte) :
    (crcShifts n r).toNat = f^[n] r.toNat := by
  induction n generalizing r with
  | zero => rfl
  | succ n ih => rw [crcShifts, ih, hf, Function.iterate_succ_apply]

/-- The checksum of a list from the states it goes through. -/
theorem Checksum.of_eq_of_scanl {ck : Checksum} {l states : List Byte} {s : Byte}
    (h : l.scanl ck.step ck.init = states) (hlast : states.getLast? = some s) : ck.of l = ck.fin s := by
  rw [← h, List.getLast?_scanl] at hlast
  exact congrArg ck.fin (Option.some.inj hlast)

/-- What the four named algorithms have in common: `step` is injective in each argument and `fin` is injective, and a
byte in front of a list leaves the initial state exactly when it is not 0x00. -/
structure Checksum.Regular (ck : Checksum) : Prop where
  state : ∀ s s' b, ck.step s b = ck.step s' b → s = s'
  byte  : ∀ s b b', ck.step s b = ck.step s b' → b = b'
  fin   : ∀ s s', ck.fin s = ck.fin s' → s = s'
  zero  : ck.step ck.init 0 = ck.init

theorem Checksum.Regular.sensitive {ck : Checksum} (h : ck.Regular) : ck.Sensitive :=
  Checksum.sensitive_of_injective h.state h.byte h.fin

/-- A byte put in front changes the checksum exactly when it is not 0x00 (R114). -/
theorem Checksum.Regular.of_cons_eq_iff {ck : Checksum} (h : ck.Regular) (m : Byte) (l : List Byte) :
    ck.of (m :: l) = ck.of l ↔ m = 0 := by
  constructor
  · intro heq
    have hinit : ck.step ck.init m = ck.init := Checksum.foldl_step_injective h.state l _ _ (h.fin _ _ heq)
    exact h.byte _ _ _ (hinit.trans h.zero.symm)
  · rintro rfl
    simp only [Checksum.of, Checksum.fold, List.foldl_cons, h.zero]

theorem Checksum.regular_sum8n : Checksum.Regular .sum8n := by
  constructor <;> simp [Checksum.step, Checksum.fin, Checksum.init]

theorem Checksum.regular_sum8 : Checksum.Regular .sum8 := by
  constructor <;> simp [Checksum.step, Checksum.fin, Checksum.init]

theorem Checksum.regular_xor8 : Checksum.Regular .xor8 := by
  constructor <;> simp [Checksum.step, Checksum.fin, Checksum.init]

theorem Checksum.regular_crc8 : Checksum.Regular .crc8 where
  state _ _ _ h := (BitVec.xor_left_inj _).mp (crcShifts_injective 8 h)
  byte _ _ _ h := (BitVec.xor_right_inj _).mp (crcShifts_injective 8 h)
  fin _ _ h := h
  zero := by decide

theorem Checksum.regular_of_named : ∀ ck ∈ [Checksum.sum8n, .sum8, .xor8, .crc8], ck.Regular := by
  simp only [List.forall_mem_cons]
  exact ⟨regular_sum8n, regular_sum8, regular_xor8, regular_crc8, nofun⟩

/-! ### A list and its checksum -/

/-- One byte changed, in the list or in the checksum, leaves no list followed by its checksum (R113). -/
theorem Checksum.Sensitive.set_ne_append_of {ck : Checksum} (hck : ck.Sensitive) (cov cov' : List Byte) {i : Nat}
    {v : Byte} (hi : i < (cov ++ [ck.of cov]).length) (hv : v ≠ (cov ++ [ck.of cov])[i]) :
    (cov ++ [ck.of cov]).set i v ≠ cov' ++ [ck.of cov'] := by
  intro heq
  by_cases hcov : i < cov.length
  · rw [List.set_append_left _ _ hcov] at heq
    obtain ⟨rfl, hsum⟩ := List.append_singleton_inj.mp heq
    rw [List.getElem_append_left hcov] at hv
    exact hck cov i v hcov hv hsum.symm
  · obtain rfl : i = cov.length := by
      simp only [List.length_append, List.length_singleton] at hi
      omega
    rw [List.set_append_right _ _ le_rfl, Nat.sub_self, List.set_cons_zero] at heq
    obtain ⟨rfl, hsum⟩ := List.append_singleton_inj.mp heq
    rw [List.getElem_concat_length rfl] at hv
    exact hv hsum

/-! ### The tables of a triple (R100) -/

theorem stepEntry_ofFn (step : Byte → Byte → Byte) (s b : Byte) :
    stepEntry (.ofFn fun k => step (BitVec.ofNat 8 (k.val / 256)) (BitVec.ofNat 8 (k.val % 256))) s b = step s b := by
  have hb : b.toNat < 2 ^ 8 := b.isLt
  have hdiv : (256 * s.toNat + b.toNat) / 256 = s.toNat := by omega
  have hmod : (256 * s.toNat + b.toNat) % 256 = b.toNat := by omega
  simp [stepEntry, hdiv, hmod]

theorem finEntry_ofFn (fin : Byte → Byte) (s : Byte) : finEntry (.ofFn fun k => fin (BitVec.ofNat 8 k.val)) s = fin s := by
  simp [finEntry]

end Sys2Proof

namespace Sys2Proof.Machine

section

variable {cfg : Config} {payload f : List Byte} {ctr : Byte}

/-! ### Frames by their fields -/

theorem frameBytes_eq_cons (cfg : Config) (payload : List Byte) (ctr : Byte) :
    frameBytes cfg payload ctr =
      cfg.marker :: (coveredBytes cfg ctr payload ++ [cfg.ck.of (coveredBytes cfg ctr payload)]) := rfl

/-- A frame is the marker, and covered bytes with their checksum. -/
theorem eq_cons_of_frameEncode (h : frameEncode cfg payload ctr = some f) :
    f = cfg.marker :: (coveredBytes cfg ctr payload ++ [cfg.ck.of (coveredBytes cfg ctr payload)]) :=
  (frameEncode_eq_some_iff.mp h).2.trans (frameBytes_eq_cons cfg payload ctr)

/-- Only the wire form of a length spells it. -/
theorem lenbytes_of_lenval {l : List Byte} {n : Nat} (h : lenval cfg l = some n) : lenbytes cfg n = l := by
  have hlen : l.length = lenWidth cfg := by
    unfold lenval at h
    split at h
    case h_1 hw => simp [lenWidth, hw]
    case h_2 hw _ => simp [lenWidth, hw]
    case h_3 hw _ => simp [lenWidth, hw]
    case h_4 => cases h
  rw [lenval_eq_lenpartial hlen] at h
  exact Option.some.inj h ▸ lenbytes_lenpartial hlen

/-! ### `decode` after the marker -/

theorem decodeBody_eq_frame_iff {c : Byte} {lb body : List Byte} {n : Nat} :
    decodeBody cfg c lb n body = .frame ctr payload ↔ ctr = c ∧ payload.length = n ∧ n ≤ cfg.maxPayload ∧
      body = payload ++ [cfg.ck.of ([c] ++ lb ++ payload)] := by
  unfold decodeBody
  constructor
  · intro h
    split_ifs at h with hbody
    obtain ⟨hn, hsplit, hlen⟩ := hbody
    obtain ⟨rfl, rfl⟩ := DecodeFrame.frame.inj h
    exact ⟨rfl, hlen, hn, hsplit⟩
  · rintro ⟨rfl, rfl, hn, rfl⟩
    simp [hn]

/-- After the marker `decode` accepts exactly what `encode` puts after it (R110). -/
theorem decodeFromCounter_eq_frame_iff (hwf : cfg.wf = true) (l : List Byte) :
    decodeFromCounter cfg l = .frame ctr payload ↔ frameEncode cfg payload ctr = some (cfg.marker :: l) := by
  rw [frameEncode_eq_some_iff, frameBytes_eq_cons, List.cons_inj_right]
  constructor
  · intro h
    cases l with
    | nil => cases h
    | cons c l =>
      unfold decodeFromCounter at h
      cases hval : lenval cfg (l.take (lenWidth cfg)) with
      | none => simp [hval] at h
      | some n =>
        simp only [hval] at h
        obtain ⟨rfl, rfl, hn, hbody⟩ := decodeBody_eq_frame_iff.mp h
        rw [coveredBytes, lenbytes_of_lenval hval]
        refine ⟨hn, ?_⟩
        calc ctr :: l = [ctr] ++ l.take (lenWidth cfg) ++ l.drop (lenWidth cfg) := by simp
          _ = _ := by rw [hbody, List.append_assoc _ payload]
  · rintro ⟨hn, rfl⟩
    have hlen := length_lenbytes cfg payload.length
    have hval := lenval_lenbytes (hn.trans_lt (maxPayload_lt_of_wf hwf))
    simp [coveredBytes, decodeFromCounter, ← hlen, hval, decodeBody_eq_frame_iff, hn]

/-! ### `decode` before the marker (R114) -/

theorem frameDecode_marker (cfg : Config) (l : List Byte) :
    frameDecode cfg (cfg.marker :: l) = decodeFromCounter cfg l := if_pos rfl

theorem frameDecode_stray {v : Byte} (h : v ≠ cfg.marker) (l : List Byte) :
    frameDecode cfg (v :: l) = frameDecode cfg l := if_neg h

theorem frameDecode_append_of_not_mem {s : List Byte} (h : cfg.marker ∉ s) (l : List Byte) :
    frameDecode cfg (s ++ l) = frameDecode cfg l := by
  induction s with
  | nil => rfl
  | cons v s ih =>
    obtain ⟨hv, hs⟩ := List.ne_and_not_mem_of_not_mem_cons h
    exact (frameDecode_stray (Ne.symm hv) _).trans (ih hs)

/-- `decode` of a list without stray bytes. -/
theorem frameDecode_marker_eq_frame_iff (hwf : cfg.wf = true) (l : List Byte) :
    frameDecode cfg (cfg.marker :: l) = .frame ctr payload ↔ frameEncode cfg payload ctr = some (cfg.marker :: l) := by
  rw [frameDecode_marker, decodeFromCounter_eq_frame_iff hwf]

theorem frameDecode_of_frameEncode (hwf : cfg.wf = true) (h : frameEncode cfg payload ctr = some f) :
    frameDecode cfg f = .frame ctr payload := by
  obtain rfl := eq_cons_of_frameEncode h
  exact (frameDecode_marker_eq_frame_iff hwf _).mpr h

theorem frameEncode_injective (hwf : cfg.wf = true) {payload' : List Byte} {ctr' : Byte}
    (h : frameEncode cfg payload ctr = some f) (h' : frameEncode cfg payload' ctr' = some f) :
    ctr = ctr' ∧ payload = payload' :=
  DecodeFrame.frame.inj ((frameDecode_of_frameEncode hwf h).symm.trans (frameDecode_of_frameEncode hwf h'))

/-- `decode` accepts exactly stray bytes without a marker and one encoded frame (R110). -/
theorem frameDecode_eq_frame_iff (hwf : cfg.wf = true) (l : List Byte) :
    frameDecode cfg l = .frame ctr payload ↔
      ∃ s f, cfg.marker ∉ s ∧ frameEncode cfg payload ctr = some f ∧ l = s ++ f := by
  constructor
  · intro h
    induction l with
    | nil => cases h
    | cons b l ih =>
      by_cases hb : b = cfg.marker
      · subst hb
        exact ⟨[], _, List.not_mem_nil, (frameDecode_marker_eq_frame_iff hwf l).mp h, rfl⟩
      · rw [frameDecode_stray hb] at h
        obtain ⟨s, f, hs, hf, rfl⟩ := ih h
        exact ⟨b :: s, f, List.not_mem_cons_of_ne_of_not_mem (Ne.symm hb) hs, hf, rfl⟩
  · rintro ⟨s, f, hs, hf, rfl⟩
    rw [frameDecode_append_of_not_mem hs, frameDecode_of_frameEncode hwf hf]

/-- The stray bytes are those before the first marker (R110). -/
theorem takeWhile_append_frame {s : List Byte} (hs : cfg.marker ∉ s) (h : frameEncode cfg payload ctr = some f) :
    (s ++ f).takeWhile (· ≠ cfg.marker) = s := by
  have hall : ∀ b ∈ s, decide (b ≠ cfg.marker) = true := fun b hb => decide_eq_true fun e => hs (e ▸ hb)
  rw [List.takeWhile_append_of_pos hall, eq_cons_of_frameEncode h]
  simp

end

/-! ### The obligations -/

/-- Settles O42: the stray bytes are those before the first marker, and one frame has one payload and counter. -/
theorem decodeIsStrayBytesThenOneFrame : Obligations.DecodeIsStrayBytesThenOneFrame := by
  intro cfg l hwf
  refine ⟨fun ctr payload => frameDecode_eq_frame_iff hwf l, fun hnone => ?_, ?_⟩
  · cases h : frameDecode cfg l with
    | corrupt => rfl
    | frame ctr payload =>
      obtain ⟨s, f, hframe⟩ := (frameDecode_eq_frame_iff hwf l).mp h
      exact absurd ⟨s, f, ctr, payload, hframe⟩ hnone
  · intro s s' f f' ctr ctr' payload payload' hs hs' hf hf' hl hl'
    have hstray : s = l.takeWhile (· ≠ cfg.marker) := by rw [hl, takeWhile_append_frame hs hf]
    have hstray' : s' = l.takeWhile (· ≠ cfg.marker) := by rw [hl', takeWhile_append_frame hs' hf']
    obtain rfl : s = s' := hstray.trans hstray'.symm
    obtain rfl : f = f' := List.append_cancel_left (hl.symm.trans hl')
    obtain ⟨hctr, hpayload⟩ := frameEncode_injective hwf hf hf'
    exact ⟨rfl, hctr, hpayload, hstray⟩

/-- Settles O44: with its marker kept the changed list must be a frame as it stands, and no changed byte leaves covered
bytes followed by their checksum; a changed marker is a stray byte. -/
theorem oneChangedByteIsCorrupt : Obligations.OneChangedByteIsCorrupt := by
  refine ⟨fun cfg payload f ctr v i hlegal hf => ⟨fun hi hpos hv => ?_, fun hv => ?_⟩, by decide, by decide⟩
  · obtain rfl := eq_cons_of_frameEncode hf
    obtain ⟨i, rfl⟩ := Nat.exists_eq_add_of_le' hpos
    rw [List.set_cons_succ]
    cases h : frameDecode cfg _ with
    | corrupt => rfl
    | frame ctr' payload' =>
      have hf' := eq_cons_of_frameEncode ((frameDecode_marker_eq_frame_iff hlegal.fits _).mp h)
      exact absurd (List.tail_eq_of_cons_eq hf')
        (hlegal.sensitive.set_ne_append_of _ _ (Nat.lt_of_succ_lt_succ hi) hv)
  · obtain rfl := eq_cons_of_frameEncode hf
    exact frameDecode_stray hv _

/-- Settles O37: the four algorithms are regular, so they are sensitive. -/
theorem namedChecksumsAreSensitive : Obligations.NamedChecksumsAreSensitive :=
  ⟨Checksum.regular_sum8n.sensitive, Checksum.regular_sum8.sensitive, Checksum.regular_xor8.sensitive,
    Checksum.regular_crc8.sensitive⟩

/-- Settles O41: `encode` is injective since `decode` gives its arguments back; `TXS` tests the length when idle. -/
theorem encodeIsPartialAndInjective : Obligations.EncodeIsPartialAndInjective := by
  refine ⟨fun cfg payload ctr hlong => if_neg (by omega), fun s ctr len hlong hidle => ?_,
    fun cfg p p' f c c' hwf hf hf' => (frameEncode_injective hwf hf hf').symm⟩
  obtain ⟨-, hbusy⟩ | ⟨hexec, -⟩ | ⟨-, -, hfits, -⟩ := execTxs_cases ctr len s
  · cases hidle.symm.trans hbusy
  · exact ⟨_, hexec, rfl⟩
  · omega

/-- Settles O43: a frame begins with the marker, and `decode` reads its fields back. -/
theorem decodeInvertsFrameEncode : Obligations.DecodeInvertsFrameEncode := by
  intro cfg payload ctr hwf hfits
  have hf : frameEncode cfg payload ctr = some _ := frameEncode_eq_some_iff.mpr ⟨hfits, rfl⟩
  exact ⟨_, hf, frameDecode_of_frameEncode hwf hf⟩

/-- Settles O45: after a stray marker the list is a frame only when its covered bytes are the real ones with the marker
in front, and that is another checksum. -/
theorem strayLeadingBytes : Obligations.StrayLeadingBytes := by
  refine ⟨fun cfg v l hv => frameDecode_stray hv l, fun cfg s l hs => frameDecode_append_of_not_mem hs l,
    fun ck hck l m => ((Checksum.regular_of_named ck hck).of_cons_eq_iff m l).not,
    fun cfg p f c hwf hck hmarker hf => ?_, by decide, by decide⟩
  cases h : frameDecode cfg ([cfg.marker] ++ f) with
  | corrupt => rfl
  | frame c' p' =>
    obtain rfl := eq_cons_of_frameEncode hf
    have hf' := eq_cons_of_frameEncode ((frameDecode_marker_eq_frame_iff hwf _).mp h)
    rw [List.cons_inj_right, ← List.cons_append] at hf'
    obtain ⟨hcov, hsum⟩ := List.append_singleton_inj.mp hf'
    rw [← hcov] at hsum
    exact absurd (((Checksum.regular_of_named _ hck).of_cons_eq_iff _ _).mp hsum.symm) hmarker

/-- Settles O36: the algorithms as numbers; the examples are evaluated. -/
theorem namedChecksumsComputeAsWritten : Obligations.NamedChecksumsComputeAsWritten := by
  refine ⟨fun s b => ⟨BitVec.toNat_add s b, BitVec.toNat_neg s, BitVec.toNat_add s b, rfl, rfl, rfl, ?_, rfl⟩, by decide,
    fun l => ?_, ?_⟩
  · rw [← BitVec.toNat_xor]
    exact crcShifts_toNat crcShift_toNat 8 (s ^^^ b)
  · simp only [Checksum.of, Checksum.fin]
    rw [← BitVec.toNat_add]
    simp
  · refine ⟨by decide, by decide, by decide, by decide, by decide, by decide,
      Checksum.of_eq_of_scanl (states := [0x00, 0x00, 0x1C, 0x53, 0xB0, 0x10, 0x6C]) (by decide) rfl,
      by decide, by decide, by decide,
      Checksum.of_eq_of_scanl (states := [0x00, 0x97, 0x72, 0xC0, 0xC2, 0xCB, 0xFD, 0x78, 0xC7, 0xF4]) (by decide) rfl,
      by decide, by decide, by decide, by decide, by decide, by decide,
      fun l => (Checksum.regular_crc8.of_cons_eq_iff 0 l).mpr rfl⟩

/-- Settles O38: the tables of a triple are read back entry by entry, and `fold` is a left fold. -/
theorem everyTripleIsAChecksum : Obligations.EveryTripleIsAChecksum :=
  ⟨fun _ step fin => ⟨rfl, funext₂ (stepEntry_ofFn step), funext (finEntry_ofFn fin)⟩,
    fun ck l b => ⟨rfl, fold_append_one ck l b, rfl⟩⟩

end Sys2Proof.Machine
end

section
/-! PROOFS. Family 41_tx_ops.md: the transmit operations (O13, O14, O15), what `send` emits (O46, O47), and that the receive
half takes it (O49). `TXS` and `TXD` are said once, case by case; a `send` is then an induction over its payload
(`completes_sendWords`), and so is the frame received (`resultsOf_feedWords_frameBytes`). -/

namespace Sys2Proof.Machine

/-! ### `TXS` and `TXD` by case (R132, R134) -/

section

variable {s : State} {ctr b : Byte} {len : Half}

theorem execTxs_of_busy (h : s.tx.phase = .data) : execTxs ctr len s = .next (s.refuse .errBusy) := if_pos h

theorem execTxs_of_long (hidle : s.tx.phase = .idle) (h : s.cfg.maxPayload < len.toNat) :
    execTxs ctr len s = .next (s.refuse .errLen) := by
  rw [execTxs, if_neg (by simp [hidle]), if_pos h]

theorem execTxs_of_fits (hidle : s.tx.phase = .idle) (h : len.toNat ≤ s.cfg.maxPayload) :
    execTxs ctr len s = .next (txStart ctr len s) := by
  rw [execTxs, if_neg (by simp [hidle]), if_neg (not_lt.mpr h)]

theorem txStart_zero :
    txStart ctr 0 s = s.idleAgain.answerOk (txHeader s.cfg ctr 0 ++ [s.cfg.ck.fin (txHeaderSum s.cfg ctr 0)]) := if_pos rfl

theorem txStart_of_ne_zero (h : len ≠ 0) :
    txStart ctr len s =
      (s.setTx ⟨.data, lenReg s.cfg len.toNat, txHeaderSum s.cfg ctr len⟩).answerOk (txHeader s.cfg ctr len) := if_neg h

theorem execTxd_of_idle (h : s.tx.phase = .idle) : execTxd b s = .next (s.refuse .errIdle) := if_pos h

theorem execTxd_of_data (h : s.tx.phase = .data) : execTxd b s = .next (txByte b s) := if_neg (by simp [h])

theorem txByte_last (h : s.tx.rem.toNat = 1) :
    txByte b s = s.idleAgain.answerOk [b, s.cfg.ck.fin (s.cfg.ck.step s.tx.sum b)] :=
  if_pos (s.tx.rem.toNat_pred_eq_zero_iff.mpr h)

theorem txByte_more (h : s.tx.rem.toNat ≠ 1) :
    txByte b s = (s.setTx ⟨.data, s.tx.rem.pred, s.cfg.ck.step s.tx.sum b⟩).answerOk [b] :=
  if_neg (s.tx.rem.toNat_pred_eq_zero_iff.not.mpr h)

end

/-! ### What `send` emits (R138) -/

theorem side_of_mem_sendWords {ctr : Byte} {p : List Byte} {w : Word} (h : w ∈ sendWords ctr p) : side w = .transmit := by
  obtain rfl | h := List.mem_cons.mp h
  · simp [side, decode_encode]
  · obtain ⟨b, -, rfl⟩ := List.mem_map.mp h
    simp [side, decode_encode]

theorem transmitWords_sendWords (ctr : Byte) (p : List Byte) : transmitWords (sendWords ctr p) = sendWords ctr p :=
  List.filter_eq_self.mpr fun w hw => by simp [side_of_mem_sendWords hw]

theorem resultsOf_cons {w : Word} {s : State} {r : Result} (h : (afterWord w s).result = some r) (ws : List Word) :
    resultsOf (w :: ws) s = r :: resultsOf ws (afterWord w s) := by
  simp [resultsOf, h]

/-- The words `ws` run from `s` are accepted throughout, emit `bytes`, and end in the canonical idle state. -/
structure Completes (ws : List Word) (s : State) (bytes : List Byte) : Prop where
  stream   : streamOf ws s = bytes
  final    : (finalOf ws s).tx = canonicalIdle s.cfg
  accepted : ∀ r ∈ resultsOf ws s, r.resp = .ok

theorem Completes.nil {s : State} (h : s.tx = canonicalIdle s.cfg) : Completes [] s [] := ⟨rfl, h, nofun⟩

theorem Completes.cons {w : Word} {ws : List Word} {s t : State} {head bytes : List Byte} (hw : afterWord w s = t)
    (hr : t.result = some ⟨.ok, .none, head⟩) (h : Completes ws t bytes) : Completes (w :: ws) s (head ++ bytes) := by
  subst hw
  refine ⟨(streamOf_cons hr ws).trans (by rw [h.stream]), by simpa [finalOf] using h.final, fun r hmem => ?_⟩
  rw [resultsOf_cons hr, List.mem_cons] at hmem
  obtain rfl | hmem := hmem
  · rfl
  · exact h.accepted r hmem

theorem Completes.last {w : Word} {s t : State} {bytes : List Byte} (hw : afterWord w s = t)
    (hr : t.result = some ⟨.ok, .none, bytes⟩) (hidle : t.tx = canonicalIdle t.cfg) : Completes [w] s bytes :=
  List.append_nil bytes ▸ .cons hw hr (.nil hidle)

theorem afterWord_txs {s : State} {ctr : Byte} {len : Half} (hidle : s.tx.phase = .idle)
    (hfits : len.toNat ≤ s.cfg.maxPayload) : afterWord (encode (.txs ctr len)) s = txStart ctr len s :=
  afterWord_of_exec (decode_encode _) (execTxs_of_fits hidle hfits)

theorem afterWord_txd {s : State} {b : Byte} (h : s.tx.phase = .data) : afterWord (encode (.txd b)) s = txByte b s :=
  afterWord_of_exec (decode_encode _) (execTxd_of_data h)

/-- The `TXD`s of the bytes still due emit them and then the checksum (R134). -/
theorem completes_payload {cfg : Config} (q : List Byte) {s : State} (b sum : Byte) (hcfg : s.cfg = cfg)
    (hlt : q.length + 1 < 2 ^ (8 * lenWidth cfg)) (htx : s.tx = ⟨.data, lenReg cfg (q.length + 1), sum⟩) :
    Completes ((b :: q).map fun b => encode (.txd b)) s (b :: q ++ [cfg.ck.fin ((b :: q).foldl cfg.ck.step sum)]) := by
  have hrem : s.tx.rem.toNat = q.length + 1 := by rw [htx]; exact toNat_lenReg_of_lt cfg hlt
  have hword := afterWord_txd (b := b) (s := s) (by rw [htx])
  induction q generalizing s b sum with
  | nil =>
    rw [txByte_last hrem, hcfg, htx] at hword
    exact .last hword rfl rfl
  | cons c q ih =>
    rw [List.length_cons] at hlt htx hrem
    have hlt' : q.length + 1 < 2 ^ (8 * lenWidth cfg) := by omega
    rw [txByte_more (by omega), hcfg, htx, pred_lenReg] at hword
    exact Completes.cons (head := [b]) hword rfl
      (ih c (cfg.ck.step sum b) hcfg hlt' rfl (toNat_lenReg_of_lt cfg hlt') (afterWord_txd rfl))

/-- A frame is what `TXS` emits, the payload, and the checksum counted on from what `TXS` leaves in `TX_SUM`. -/
theorem frameBytes_eq_txHeader_append (cfg : Config) (ctr : Byte) {p : List Byte} {len : Half} (hlen : len.toNat = p.length) :
    frameBytes cfg p ctr =
      txHeader cfg ctr len ++ (p ++ [cfg.ck.fin (p.foldl cfg.ck.step (txHeaderSum cfg ctr len))]) := by
  simp only [frameBytes, coveredBytes, txHeader, txHeaderSum, Checksum.of, Checksum.fold, hlen, List.foldl_append,
    List.append_assoc]
  rfl

/-- From canonical idle, a `TXS` of the payload's length and its `TXD`s complete the encoded frame. -/
theorem completes_txs {s : State} {p : List Byte} {len : Half} (ctr : Byte) (hwf : s.cfg.wf = true)
    (hidle : s.tx = canonicalIdle s.cfg) (hfits : p.length ≤ s.cfg.maxPayload) (hlen : len.toNat = p.length) :
    Completes (encode (.txs ctr len) :: p.map fun b => encode (.txd b)) s (frameBytes s.cfg p ctr) := by
  have hword := afterWord_txs (ctr := ctr) (by rw [hidle]; rfl) (hlen.trans_le hfits)
  rw [frameBytes_eq_txHeader_append s.cfg ctr hlen]
  cases p with
  | nil =>
    obtain rfl : len = 0 := BitVec.eq_of_toNat_eq hlen
    rw [txStart_zero] at hword
    exact .last hword rfl rfl
  | cons b q =>
    have hpos : len ≠ 0 := by rintro rfl; cases hlen
    rw [txStart_of_ne_zero hpos, hlen] at hword
    exact Completes.cons hword rfl (completes_payload q b _ rfl (hfits.trans_lt (maxPayload_lt_of_wf hwf)) rfl)

/-- From canonical idle, `send` completes the encoded frame: its payload's length fits the `len` field. -/
theorem completes_sendWords {s : State} {p : List Byte} (ctr : Byte) (hwf : s.cfg.wf = true)
    (hidle : s.tx = canonicalIdle s.cfg) (hfits : p.length ≤ s.cfg.maxPayload) :
    Completes (sendWords ctr p) s (frameBytes s.cfg p ctr) := by
  have hwidth : 8 * lenWidth s.cfg ≤ 16 := by have := lenWidth_le s.cfg; omega
  have hlt : p.length < 2 ^ 16 :=
    calc p.length ≤ s.cfg.maxPayload := hfits
      _ < 2 ^ (8 * lenWidth s.cfg) := maxPayload_lt_of_wf hwf
      _ ≤ 2 ^ 16 := Nat.pow_le_pow_right (by omega) hwidth
  exact completes_txs ctr hwf hidle hfits ((BitVec.toNat_ofNat ..).trans (Nat.mod_eq_of_lt hlt))

/-- A transmit word of a sequence answers what it answers among the transmit words and `RST`s alone. -/
theorem result_mem_transmitWords {ws : List Word} {s s' : State} (hcfg : s'.cfg = s.cfg) (htx : s'.tx = s.tx) :
    ∀ x ∈ ws.zip (resultsOf ws s'), side x.1 = .transmit → x.2 ∈ resultsOf (transmitWords ws) s := by
  induction ws generalizing s s' with
  | nil => nofun
  | cons w ws ih =>
    intro x hx hside
    obtain ⟨r, hr⟩ := afterWord_result w s'
    rw [resultsOf_cons hr, List.zip_cons_cons, List.mem_cons] at hx
    by_cases hw : side w = .transmit ∨ side w = .both
    · have hkeep : transmitWords (w :: ws) = w :: transmitWords ws := List.filter_cons_of_pos (by simpa using hw)
      have hnot : side w ≠ .receive := by rcases hw with hw | hw <;> simp [hw]
      obtain ⟨htx', hresult⟩ := afterWord_tx_congr hnot hcfg htx
      rw [hkeep, resultsOf_cons (hresult.symm.trans hr), List.mem_cons]
      exact hx.imp (congrArg Prod.snd) fun hx => ih (by simpa using hcfg) htx' x hx hside
    · have hdrop : transmitWords (w :: ws) = transmitWords ws := List.filter_cons_of_neg (by simpa using hw)
      obtain ⟨htransmit, hboth⟩ := not_or.mp hw
      rw [hdrop]
      obtain rfl | hx := hx
      · exact absurd hside htransmit
      · exact ih (by simpa using hcfg) ((afterWord_tx_bytes htransmit hboth s').1.trans htx) x hx hside

/-! ### A frame received from canonical hunt (R161) -/

/-- The bytes `l` fed to `s` are each accepted without an event, and leave the receive half `rx`. -/
structure Accepts (l : List Byte) (s : State) (rx : RxHalf) : Prop where
  results : resultsOf (feedWords l) s = List.replicate l.length ⟨.ok, .none, []⟩
  final   : (finalOf (feedWords l) s).rx = rx

theorem afterWord_rxb (b : Byte) (s : State) : afterWord (encode (.rxb b)) s = rxByte b s :=
  afterWord_of_exec (decode_encode _) rfl

theorem resultsOf_feedWords_cons (b : Byte) (l : List Byte) (s : State) :
    resultsOf (feedWords (b :: l)) s = (rxByte b s).result.toList ++ resultsOf (feedWords l) (rxByte b s) := by
  rw [← afterWord_rxb]
  rfl

theorem finalOf_feedWords_cons (b : Byte) (l : List Byte) (s : State) :
    finalOf (feedWords (b :: l)) s = finalOf (feedWords l) (rxByte b s) := by
  rw [← afterWord_rxb]
  rfl

theorem Accepts.nil (s : State) : Accepts [] s s.rx := ⟨rfl, rfl⟩

theorem Accepts.cons {b : Byte} {l : List Byte} {s : State} {rx rx' : RxHalf} (hb : rxByte b s = (s.setRx rx).answerOk [])
    (h : Accepts l ((s.setRx rx).answerOk []) rx') : Accepts (b :: l) s rx' := by
  constructor
  · rw [resultsOf_feedWords_cons, hb, h.results]
    rfl
  · rw [finalOf_feedWords_cons, hb, h.final]

theorem Accepts.append {l l' : List Byte} {s : State} {rx rx' : RxHalf} (h : Accepts l s rx)
    (h' : Accepts l' (finalOf (feedWords l) s) rx') : Accepts (l ++ l') s rx' := by
  constructor
  · rw [feedWords_append, resultsOf_append, h.results, h'.results, List.length_append, List.replicate_append_replicate]
  · rw [feedWords_append, finalOf_append, h'.final]

section

variable (cfg : Config) (ctr : Byte) (n : Nat)

/-- The receive half after the marker, the counter `ctr` and the length bytes `lb`, not yet all (R37, `LEN`). -/
def lenLine (lb : List Byte) : RxHalf :=
  ⟨.len, ctr, lenReg cfg (lenpartial cfg lb), lenReg cfg lb.length, cfg.ck.fold ([ctr] ++ lb), []⟩

/-- The receive half after a whole length field that declares `n` and the payload bytes `p`: `CSUM` when they are all
(R37, `DATA` and `CSUM`). -/
def payloadLine (p : List Byte) : RxHalf :=
  ⟨if p.length = n then .csum else .data, ctr, lenReg cfg n, lenReg cfg p.length,
    cfg.ck.fold ([ctr] ++ lenbytes cfg n ++ p), Memory.ofBytes p⟩

end

theorem lenpartial_lenbytes {cfg : Config} {n : Nat} (h : n < 2 ^ (8 * lenWidth cfg)) :
    lenpartial cfg (lenbytes cfg n) = n :=
  Option.some.inj ((lenval_eq_lenpartial (length_lenbytes cfg n)).symm.trans (lenval_lenbytes h))

section

variable {s : State} {ctr b : Byte} {n : Nat}

theorem rxByte_marker (h : s.rx = canonicalHunt s.cfg) :
    rxByte s.cfg.marker s = (s.setRx { canonicalHunt s.cfg with phase := .ctr }).answerOk [] := by
  rw [rxByte_hunt (by rw [h]; rfl), rxHunt, if_pos rfl, h]

theorem rxByte_counter (h : s.rx = { canonicalHunt s.cfg with phase := .ctr }) :
    rxByte b s = (s.setRx (lenLine s.cfg b [])).answerOk [] := by
  rw [rxByte_ctr (by rw [h]), rxCtr, h]
  rfl

theorem rxByte_lengthByte {lb : List Byte} (h : s.rx = lenLine s.cfg ctr lb) (hmore : lb.length + 1 < lenWidth s.cfg) :
    rxByte b s = (s.setRx (lenLine s.cfg ctr (lb ++ [b]))).answerOk [] := by
  have hidx := toNat_lenReg_of_le_lenWidth (cfg := s.cfg) (k := lb.length) (by omega)
  have hlen := toNat_lenReg_lenpartial (cfg := s.cfg) (l := lb) (by omega)
  rw [rxByte_len (by rw [h]; rfl), rxLen, h]
  simp only [lenLine, hidx, hlen, if_pos hmore, ← lenpartial_append_one, succ_lenReg, List.length_append,
    List.length_singleton, ← List.append_assoc, fold_append_one]

theorem rxByte_lengthDone {lb : List Byte} (hwf : s.cfg.wf = true) (hfits : n ≤ s.cfg.maxPayload)
    (h : s.rx = lenLine s.cfg ctr lb) (hlast : lb ++ [b] = lenbytes s.cfg n) :
    rxByte b s = (s.setRx (payloadLine s.cfg ctr n [])).answerOk [] := by
  have hwidth : lb.length + 1 = lenWidth s.cfg := by
    rw [← length_lenbytes s.cfg n, ← hlast, List.length_append, List.length_singleton]
  have hidx := toNat_lenReg_of_le_lenWidth (cfg := s.cfg) (k := lb.length) (by omega)
  have hlen := toNat_lenReg_lenpartial (cfg := s.cfg) (l := lb) (by omega)
  have hval : mergeLen s.cfg (lenpartial s.cfg lb) lb.length b = n := by
    rw [← lenpartial_append_one, hlast, lenpartial_lenbytes (hfits.trans_lt (maxPayload_lt_of_wf hwf))]
  have hsum : s.cfg.ck.step (s.cfg.ck.fold ([ctr] ++ lb)) b = s.cfg.ck.fold ([ctr] ++ lenbytes s.cfg n ++ []) := by
    rw [← fold_append_one, List.append_assoc, hlast, List.append_nil]
  rw [rxByte_len (by rw [h]; rfl), rxLen, h]
  simp only [lenLine, hidx, hlen, hval, hsum, if_neg hwidth.not_lt, if_neg (not_lt.mpr hfits)]
  obtain rfl | hpos := eq_or_ne n 0
  · rw [if_pos rfl]
    rfl
  · rw [if_neg hpos, payloadLine, if_neg (show ([] : List Byte).length ≠ n from Ne.symm hpos)]
    rfl

theorem rxByte_payload {p : List Byte} (hwf : s.cfg.wf = true) (hfits : n ≤ s.cfg.maxPayload)
    (h : s.rx = payloadLine s.cfg ctr n p) (hp : p.length < n) :
    rxByte b s = (s.setRx (payloadLine s.cfg ctr n (p ++ [b]))).answerOk [] := by
  have hidx := toNat_lenReg_of_le_maxPayload hwf (hp.le.trans hfits)
  have hlen := toNat_lenReg_of_le_maxPayload hwf hfits
  have hbuf := memWrite_ofBytes s.cfg p b (hp.trans_le hfits)
  rw [rxByte_data (by rw [h]; exact if_neg hp.ne), rxData, rxStoreIndex, h]
  simp only [payloadLine, hidx, hlen, hbuf, succ_lenReg, List.length_append, List.length_singleton, ← List.append_assoc,
    fold_append_one]

theorem rxByte_checksum {cfg : Config} {p : List Byte} (hcfg : s.cfg = cfg) (hwf : cfg.wf = true)
    (hfits : p.length ≤ cfg.maxPayload) (h : s.rx = payloadLine cfg ctr p.length p) :
    rxByte (cfg.ck.of (coveredBytes cfg ctr p)) s = s.deliver ctr p.length p := by
  subst hcfg
  have hlen := toNat_lenReg_of_le_maxPayload hwf hfits
  rw [rxByte_csum (by rw [h]; exact if_pos rfl), rxCsum, h]
  simp only [payloadLine, hlen, memReadUpTo_ofBytes _ p hfits]
  exact if_pos rfl

end

section

variable {cfg : Config} {s : State} {ctr : Byte} {n : Nat}

/-- The length bytes still due open the payload. -/
theorem accepts_lenbytes {l lb : List Byte} (hcfg : s.cfg = cfg) (hwf : cfg.wf = true) (hfits : n ≤ cfg.maxPayload)
    (h : s.rx = lenLine cfg ctr lb) (hl : lb ++ l = lenbytes cfg n) (hne : l ≠ []) :
    Accepts l s (payloadLine cfg ctr n []) := by
  induction l generalizing lb s with
  | nil => exact absurd rfl hne
  | cons b l ih =>
    subst hcfg
    cases l with
    | nil => exact .cons (rxByte_lengthDone hwf hfits h hl) (.nil _)
    | cons c l =>
      have hmore : lb.length + 1 < lenWidth s.cfg := by
        rw [← length_lenbytes s.cfg n, ← hl]
        simp
      exact .cons (rxByte_lengthByte h hmore) (ih rfl rfl (by simpa using hl) (List.cons_ne_nil c l))

/-- The payload bytes still due complete the payload. -/
theorem accepts_payload {q p : List Byte} (hcfg : s.cfg = cfg) (hwf : cfg.wf = true) (hfits : n ≤ cfg.maxPayload)
    (h : s.rx = payloadLine cfg ctr n p) (hn : p.length + q.length = n) :
    Accepts q s (payloadLine cfg ctr n (p ++ q)) := by
  induction q generalizing p s with
  | nil => rw [List.append_nil, ← h]; exact .nil s
  | cons b q ih =>
    subst hcfg
    rw [List.length_cons] at hn
    rw [List.append_cons]
    exact .cons (rxByte_payload hwf hfits h (by omega)) (ih rfl rfl (by simp; omega))

end

/-- The bytes of a frame before its checksum leave the whole payload in the receive half. -/
theorem accepts_marker_coveredBytes {s : State} {p : List Byte} (ctr : Byte) (hwf : s.cfg.wf = true)
    (h : s.rx = canonicalHunt s.cfg) (hfits : p.length ≤ s.cfg.maxPayload) :
    Accepts (s.cfg.marker :: coveredBytes s.cfg ctr p) s (payloadLine s.cfg ctr p.length p) := by
  have hne : lenbytes s.cfg p.length ≠ [] :=
    List.ne_nil_of_length_pos ((lenWidth_pos s.cfg).trans_eq (length_lenbytes s.cfg p.length).symm)
  refine .cons (rxByte_marker h) (.cons (rxByte_counter rfl) ?_)
  have hlength := accepts_lenbytes (lb := []) (s := (s.setRx (lenLine s.cfg ctr [])).answerOk []) rfl hwf hfits rfl rfl hne
  exact hlength.append (accepts_payload (p := []) (finalOf_cfg _ _) hwf hfits hlength.final (Nat.zero_add _))

/-- A frame fed from canonical hunt is delivered on its last byte, with no event before. -/
theorem resultsOf_feedWords_frameBytes {s : State} {p : List Byte} (ctr : Byte) (hwf : s.cfg.wf = true)
    (h : s.rx = canonicalHunt s.cfg) (hfits : p.length ≤ s.cfg.maxPayload) :
    resultsOf (feedWords (frameBytes s.cfg p ctr)) s =
        List.replicate ((frameBytes s.cfg p ctr).length - 1) ⟨.ok, .none, []⟩ ++ [⟨.ok, .frame ctr p.length p, []⟩] ∧
      (finalOf (feedWords (frameBytes s.cfg p ctr)) s).rx = canonicalHunt s.cfg := by
  have hcovered := accepts_marker_coveredBytes ctr hwf h hfits
  have hlast := rxByte_checksum (finalOf_cfg _ s) hwf hfits hcovered.final
  rw [frameBytes_eq_cons, ← List.cons_append, feedWords_append, resultsOf_append, finalOf_append, hcovered.results,
    resultsOf_feedWords_cons _ [], finalOf_feedWords_cons _ [], hlast]
  constructor
  · simp [feedWords, resultsOf]
  · simp [feedWords, finalOf]

/-! ### The obligations -/

/-- Settles O46: the transmit half sees of the sequence the words of `send` alone. -/
theorem sendEmitsTheEncodedFrame : Obligations.SendEmitsTheEncodedFrame := by
  intro s ctr p ws hwf hidle hfits hws
  have hsend := completes_sendWords ctr hwf hidle hfits
  obtain ⟨htx, hstream⟩ := finalOf_tx_streamOf ws (s := s) rfl rfl
  rw [hws] at htx hstream
  have hrun := run_eq ws s
  refine ⟨_, hrun, ?_, htx.trans hsend.final, fun x hx hside => ?_⟩
  · rw [run_txStream hrun, hstream, hsend.stream]
    exact frameEncode_eq_some_iff.mpr ⟨hfits, rfl⟩
  · exact hsend.accepted _ (hws ▸ result_mem_transmitWords rfl rfl x hx hside)

/-- Settles O49: `send` emits the encoded frame, and the receive half delivers an encoded frame. -/
theorem sentFramesAreReceived : Obligations.SentFramesAreReceived := by
  intro s s' ctr p hwf hcfg hidle hhunt hfits
  have hsend := run_eq (sendWords ctr p) s
  refine ⟨_, _, hsend, run_eq _ _, ?_⟩
  rw [run_txStream hsend, (completes_sendWords ctr hwf hidle hfits).stream, ← hcfg]
  rw [← hcfg] at hwf hhunt hfits
  simp [Run.events, (resultsOf_feedWords_frameBytes ctr hwf hhunt hfits).1]

/-- Settles O47: what a sequence emits depends on the configuration and the transmit half only. -/
theorem resendIsIdentical : Obligations.ResendIsIdentical := by
  intro s s' ctr p hcfg hidle hidle'
  have hrun := run_eq (sendWords ctr p) s
  have hrun' := run_eq (sendWords ctr p) s'
  obtain ⟨-, hstream⟩ := finalOf_tx_streamOf (sendWords ctr p) hcfg (hidle'.trans hidle.symm)
  rw [transmitWords_sendWords] at hstream
  exact ⟨_, _, hrun, hrun', (run_txStream hrun).trans (hstream.symm.trans (run_txStream hrun').symm)⟩

/-- Settles O13: the four cases of `TXS`. -/
theorem txsFollowsItsRule : Obligations.TxsFollowsItsRule := by
  refine ⟨fun ctr len => (asmTxs_toNat ctr len).symm, fun s ctr len => ⟨execTxs_of_busy, execTxs_of_long,
    fun hidle hfits hzero => ?_, fun hidle hfits hpos => ?_⟩⟩
  · subst hzero
    exact (execTxs_of_fits hidle hfits).trans (congrArg _ txStart_zero)
  · exact (execTxs_of_fits hidle hfits).trans (congrArg _ (txStart_of_ne_zero hpos))

/-- Settles O14: the three cases of `TXD`; the count reaches 0 exactly when it held 1. -/
theorem txdFollowsItsRule : Obligations.TxdFollowsItsRule :=
  ⟨fun b => (asmTxd_toNat b).symm, fun _ _ => ⟨execTxd_of_idle,
    fun hdata hlast => (execTxd_of_data hdata).trans (congrArg _ (txByte_last hlast)),
    fun hdata hmore => (execTxd_of_data hdata).trans (congrArg _ (txByte_more hmore))⟩⟩

/-- Settles O15: on the `IDLE` line of R38's table the transmit half is canonical already. -/
theorem txaGivesCanonicalIdle : Obligations.TxaGivesCanonicalIdle := by
  refine ⟨by decide, fun s => ⟨rfl, fun hinv hidle => ⟨_, rfl, ?_⟩⟩⟩
  have htx := hinv.tx
  simp only [TxHalf.Inv, hidle] at htx
  exact htx.symm

end Sys2Proof.Machine
end

section
/-! PROOFS. Family 42_rx_ops.md: `RXB` and `RXA` by case (O17, O18, O19, O20), what a receive half delivers (O48, O50, O51),
and what it rejects (O52, O53). The bytes taken since the half was last canonical are read off its line of R37's table
(`Received`, and for a whole sequence `Holds`). One more byte leads to such a line or ends the candidate
(`Received.rxByte_cases`): a delivery comes with the last byte of an encoded frame and from nothing else. -/

namespace Sys2Proof.Machine

/-! ### `RXB` by case (R153, R155, R157) -/

section

variable {s : State} {b : Byte}

theorem exec_rxb {t : State} (h : rxByte b s = t) : exec (.rxb b) s = .next t := congrArg _ h

theorem rxByte_stray (h : s.rx.phase = .hunt) (hb : b ≠ s.cfg.marker) : rxByte b s = s.answerOk [] :=
  (rxByte_hunt h).trans (if_neg hb)

theorem rxByte_opens (h : s.rx.phase = .hunt) (hb : b = s.cfg.marker) :
    rxByte b s = (s.setRx { s.rx with phase := .ctr }).answerOk [] :=
  (rxByte_hunt h).trans (if_pos hb)

theorem rxByte_frame (h : s.rx.phase = .csum) (hb : s.cfg.ck.fin s.rx.sum = b) :
    rxByte b s = s.deliver s.rx.ctr s.rx.len.toNat (memReadUpTo s.cfg s.rx.buf s.rx.len.toNat) :=
  (rxByte_csum h).trans (if_pos hb)

theorem rxByte_badChecksum (h : s.rx.phase = .csum) (hb : s.cfg.ck.fin s.rx.sum ≠ b) :
    rxByte b s = s.raiseCorrupt .checksum :=
  (rxByte_csum h).trans (if_neg hb)

/-- The two cases of R152's length assembly, by byte order. -/
theorem eq_mergeLen {cfg : Config} {x k n : Nat} (hlittle : cfg.lenEndian = .little → n = x ||| (b.toNat <<< (8 * k)))
    (hbig : cfg.lenEndian = .big → n = (x <<< 8) ||| b.toNat) : n = mergeLen cfg x k b := by
  unfold mergeLen
  cases h : cfg.lenEndian with
  | little => exact hlittle h
  | big => exact hbig h

section

variable {n : Nat} (h : s.rx.phase = .len) (hn : n = mergeLen s.cfg s.rx.len.toNat s.rx.idx.toNat b)

include h hn

theorem rxByte_lenMore (hmore : s.rx.idx.toNat + 1 < lenWidth s.cfg) :
    rxByte b s = (s.setRx { s.rx with
      len := lenReg s.cfg n, sum := s.cfg.ck.step s.rx.sum b, idx := s.rx.idx.succ }).answerOk [] := by
  rw [rxByte_len h, rxLen, ← hn]
  exact if_pos hmore

theorem rxByte_lenLong (hlast : lenWidth s.cfg ≤ s.rx.idx.toNat + 1) (hlong : s.cfg.maxPayload < n) :
    rxByte b s = s.raiseCorrupt .lenRange := by
  rw [rxByte_len h, rxLen, ← hn]
  exact (if_neg (not_lt.mpr hlast)).trans (if_pos hlong)

theorem rxByte_lenZero (hlast : lenWidth s.cfg ≤ s.rx.idx.toNat + 1) (hzero : n = 0) :
    rxByte b s = (s.setRx { s.rx with
      len := lenReg s.cfg 0, sum := s.cfg.ck.step s.rx.sum b, idx := lenReg s.cfg 0, phase := .csum }).answerOk [] := by
  subst hzero
  rw [rxByte_len h, rxLen, ← hn]
  exact (if_neg (not_lt.mpr hlast)).trans ((if_neg (Nat.not_lt_zero _)).trans (if_pos rfl))

theorem rxByte_lenPos (hlast : lenWidth s.cfg ≤ s.rx.idx.toNat + 1) (hfits : n ≤ s.cfg.maxPayload) (hpos : n ≠ 0) :
    rxByte b s = (s.setRx { s.rx with
      len := lenReg s.cfg n, sum := s.cfg.ck.step s.rx.sum b, idx := lenReg s.cfg 0, phase := .data }).answerOk [] := by
  rw [rxByte_len h, rxLen, ← hn]
  exact (if_neg (not_lt.mpr hlast)).trans ((if_neg (not_lt.mpr hfits)).trans (if_neg hpos))

end

end

/-! ### The lines of R37's table with their payload -/

section

variable {s : State} {ctr b : Byte} {n : Nat} {p : List Byte}

theorem RxHalf.Inv.of_data_payloadLine {cfg : Config} {rx : RxHalf} (h : rx.Inv cfg) (hphase : rx.phase = .data) :
    ∃ ctr n p, n ≤ cfg.maxPayload ∧ p.length < n ∧ rx = payloadLine cfg ctr n p := by
  obtain ⟨ctr, n, p, -, hfits, hp, hrx⟩ := h.of_data hphase
  exact ⟨ctr, n, p, hfits, hp, by rw [hrx, payloadLine, if_neg hp.ne]⟩

theorem RxHalf.Inv.of_csum_payloadLine {cfg : Config} {rx : RxHalf} (h : rx.Inv cfg) (hphase : rx.phase = .csum) :
    ∃ ctr p, p.length ≤ cfg.maxPayload ∧ rx = payloadLine cfg ctr p.length p := by
  obtain ⟨ctr, n, p, hfits, rfl, hrx⟩ := h.of_csum hphase
  exact ⟨ctr, p, hfits, by rw [hrx, payloadLine, if_pos rfl]⟩

/-- `RX_PAY` on the lines `DATA` and `CSUM` (R32). -/
theorem rxPay_payloadLine {cfg : Config} (hwf : cfg.wf = true) (hp : p.length ≤ cfg.maxPayload) :
    rxPay cfg (payloadLine cfg ctr n p) = p := by
  have hread : memReadUpTo cfg (Memory.ofBytes p) (lenReg cfg p.length).toNat = p := by
    rw [toNat_lenReg_of_le_maxPayload hwf hp, memReadUpTo_ofBytes cfg p hp]
  unfold rxPay payloadLine
  by_cases h : p.length = n <;> simpa [h] using hread

theorem payloadLine_phase_eq_csum_iff {cfg : Config} (hwf : cfg.wf = true) (hfits : n ≤ cfg.maxPayload)
    (hp : p.length ≤ n) :
    (payloadLine cfg ctr n p).phase = .csum ↔ (payloadLine cfg ctr n p).idx = (payloadLine cfg ctr n p).len := by
  have hidx := toNat_lenReg_of_le_maxPayload hwf (hp.trans hfits)
  have hlen := toNat_lenReg_of_le_maxPayload hwf hfits
  have hregs : lenReg cfg p.length = lenReg cfg n ↔ p.length = n :=
    ⟨fun h => by rw [← hidx, h, hlen], fun h => by rw [h]⟩
  simp only [payloadLine, hregs]
  split_ifs with h <;> simp [h]

/-- The last length byte of a length above `MAX_PAYLOAD` (R155). -/
theorem rxByte_lengthLong {lb : List Byte} (h : s.rx = lenLine s.cfg ctr lb) (hlast : lb.length + 1 = lenWidth s.cfg)
    (hlong : s.cfg.maxPayload < lenpartial s.cfg (lb ++ [b])) : rxByte b s = s.raiseCorrupt .lenRange := by
  have hidx : s.rx.idx.toNat = lb.length := by rw [h]; exact toNat_lenReg_of_le_lenWidth (by omega)
  have hlen : s.rx.len.toNat = lenpartial s.cfg lb := by rw [h]; exact toNat_lenReg_lenpartial (by omega)
  refine rxByte_lenLong (by rw [h]; rfl) ?_ (by omega) hlong
  rw [hidx, hlen, lenpartial_append_one]

/-- Another byte than the checksum of the bytes taken (R157). -/
theorem rxByte_wrongChecksum (h : s.rx = payloadLine s.cfg ctr p.length p)
    (hb : b ≠ s.cfg.ck.of (coveredBytes s.cfg ctr p)) : rxByte b s = s.raiseCorrupt .checksum :=
  rxByte_badChecksum (by rw [h]; exact if_pos rfl) (by rw [h]; exact Ne.symm hb)

end

/-! ### The last byte of a list fed -/

/-- The events of a sequence, one a word (R61). -/
def eventsOf (ws : List Word) (s : State) : List Event := (resultsOf ws s).map Result.evt

theorem run_events {ws : List Word} {s : State} {r : Run} (h : run ws s = some r) : r.events = eventsOf ws s := by
  rw [run_eq] at h; cases h; rfl

theorem eventsOf_append (ws vs : List Word) (s : State) :
    eventsOf (ws ++ vs) s = eventsOf ws s ++ eventsOf vs (finalOf ws s) := by
  simp only [eventsOf, resultsOf_append, List.map_append]

/-- The event on the last word of a sequence is the last event. -/
theorem eventsOf_append_one {ws : List Word} {w : Word} {s : State} {r : Result}
    (h : (afterWord w (finalOf ws s)).result = some r) : eventsOf (ws ++ [w]) s = eventsOf ws s ++ [r.evt] := by
  rw [eventsOf_append, eventsOf, eventsOf, resultsOf_cons h]
  rfl

theorem deliveriesOf_append (ws vs : List Word) (s : State) :
    deliveriesOf (ws ++ vs) s = deliveriesOf ws s ++ deliveriesOf vs (finalOf ws s) := by
  simp only [deliveriesOf, resultsOf_append, List.map_append, List.filter_append]

section

variable {s : State} {l : List Byte} {b : Byte}

theorem feedWords_append_one (l : List Byte) (b : Byte) : feedWords (l ++ [b]) = feedWords l ++ [encode (.rxb b)] :=
  feedWords_append l [b]

theorem finalOf_feedWords_append_one (l : List Byte) (b : Byte) (s : State) :
    finalOf (feedWords (l ++ [b])) s = rxByte b (finalOf (feedWords l) s) := by
  rw [feedWords_append_one, finalOf_append, ← afterWord_rxb]
  rfl

/-- `RXB` answers `OK`, emits nothing and gives one event (R158). -/
theorem rxByte_result (b : Byte) (s : State) : ∃ e, (rxByte b s).result = some ⟨.ok, e, []⟩ := by
  obtain ⟨rx, h⟩ | ⟨cause, h, -⟩ | ⟨h, -⟩ := rxByte_cases b s
  · exact ⟨.none, by rw [h]; rfl⟩
  · exact ⟨.corrupt cause, by rw [h]; rfl⟩
  · exact ⟨.frame _ _ _, by rw [h]; rfl⟩

theorem eventsOf_feedWords_append_one {e : Event}
    (h : (rxByte b (finalOf (feedWords l) s)).result = some ⟨.ok, e, []⟩) :
    eventsOf (feedWords (l ++ [b])) s = eventsOf (feedWords l) s ++ [e] := by
  rw [feedWords_append_one, eventsOf_append_one (by rw [afterWord_rxb]; exact h)]

theorem Accepts.events {rx : RxHalf} (h : Accepts l s rx) :
    eventsOf (feedWords l) s = List.replicate l.length .none := by
  rw [eventsOf, h.results, List.map_replicate]

/-- An event ends the candidate: the half is canonical again (R31). -/
theorem rxByte_rx_of_event {r : Result} (hr : (rxByte b s).result = some r) (hevt : r.evt ≠ .none) :
    (rxByte b s).rx = canonicalHunt s.cfg := by
  obtain ⟨rx, h⟩ | ⟨cause, h, -⟩ | ⟨h, -⟩ := rxByte_cases b s
  · rw [h] at hr; cases hr; exact absurd rfl hevt
  · rw [h]; rfl
  · rw [h]; rfl

end

/-! ### The bytes a candidate has taken (R37) -/

/-- The bytes `l`, received from canonical hunt without an event, have left the receive half `rx`: stray bytes, and the
fields of a candidate as far as they have come. -/
inductive Received (cfg : Config) : List Byte → RxHalf → Prop
  | stray {pre : List Byte} (hpre : cfg.marker ∉ pre) : Received cfg pre (canonicalHunt cfg)
  | marker {pre : List Byte} (hpre : cfg.marker ∉ pre) :
      Received cfg (pre ++ [cfg.marker]) { canonicalHunt cfg with phase := .ctr }
  | length {pre : List Byte} (hpre : cfg.marker ∉ pre) (ctr : Byte) {lb : List Byte} (hlb : lb.length < lenWidth cfg) :
      Received cfg (pre ++ cfg.marker :: ctr :: lb) (lenLine cfg ctr lb)
  | payload {pre : List Byte} (hpre : cfg.marker ∉ pre) (ctr : Byte) {n : Nat} {p : List Byte}
      (hfits : n ≤ cfg.maxPayload) (hp : p.length ≤ n) :
      Received cfg (pre ++ cfg.marker :: ctr :: (lenbytes cfg n ++ p)) (payloadLine cfg ctr n p)

/-- One more byte is taken into the candidate, or ends it: by a `CORRUPT`, or by the delivery of the frame whose encoding
it completes. -/
theorem Received.rxByte_cases {l : List Byte} {s : State} (h : Received s.cfg l s.rx) (hwf : s.cfg.wf = true) (b : Byte) :
    (∃ rx, rxByte b s = (s.setRx rx).answerOk [] ∧ Received s.cfg (l ++ [b]) rx) ∨
    (∃ cause, rxByte b s = s.raiseCorrupt cause) ∨
    ∃ pre ctr p, rxByte b s = s.deliver ctr p.length p ∧ s.cfg.marker ∉ pre ∧ p.length ≤ s.cfg.maxPayload ∧
      l ++ [b] = pre ++ frameBytes s.cfg p ctr := by
  generalize hrx : s.rx = rx at h
  cases h with
  | stray hpre =>
    refine .inl ?_
    by_cases hb : b = s.cfg.marker
    · subst hb
      exact ⟨_, rxByte_marker hrx, .marker hpre⟩
    · refine ⟨s.rx, rxByte_stray (by rw [hrx]; rfl) hb, ?_⟩
      rw [hrx]
      exact .stray (by simp [hpre, Ne.symm hb])
  | marker hpre =>
    refine .inl ⟨_, rxByte_counter hrx, ?_⟩
    rw [List.append_assoc]
    exact .length hpre b (lenWidth_pos s.cfg)
  | @length pre hpre ctr lb hlb =>
    have hbytes : (pre ++ s.cfg.marker :: ctr :: lb) ++ [b] = pre ++ s.cfg.marker :: ctr :: (lb ++ [b]) := by simp
    rw [hbytes]
    by_cases hmore : lb.length + 1 < lenWidth s.cfg
    · exact .inl ⟨_, rxByte_lengthByte hrx hmore, .length hpre ctr (by simpa using hmore)⟩
    · have hlast : (lb ++ [b]).length = lenWidth s.cfg := by simp; omega
      have hfield := lenbytes_lenpartial hlast
      by_cases hfits : lenpartial s.cfg (lb ++ [b]) ≤ s.cfg.maxPayload
      · refine .inl ⟨_, rxByte_lengthDone hwf hfits hrx hfield.symm, ?_⟩
        have hopen := Received.payload hpre ctr (p := []) hfits (Nat.zero_le _)
        rwa [hfield, List.append_nil] at hopen
      · exact .inr (.inl ⟨_, rxByte_lengthLong hrx (by simpa using hlast) (not_le.mp hfits)⟩)
  | @payload pre hpre ctr n p hfits hp =>
    obtain hlt | rfl := hp.lt_or_eq
    · refine .inl ⟨_, rxByte_payload hwf hfits hrx hlt, ?_⟩
      have htaken := Received.payload hpre ctr (p := p ++ [b]) hfits (by simpa using hlt)
      simpa using htaken
    · by_cases hb : b = s.cfg.ck.of (coveredBytes s.cfg ctr p)
      · subst hb
        refine .inr (.inr ⟨pre, ctr, p, rxByte_checksum rfl hwf hfits hrx, hpre, hfits, ?_⟩)
        simp [frameBytes, coveredBytes]
      · exact .inr (.inl ⟨_, rxByte_wrongChecksum hrx hb⟩)

/-- Of the bytes `before ++ since` fed to `s`, the half holds `since`: it was canonical before them, and has given no event
from there. Where bytes came before, one of the bytes gave an event. -/
structure Holds (s : State) (before since : List Byte) : Prop where
  hunt     : (finalOf (feedWords before) s).rx = canonicalHunt s.cfg
  received : Received s.cfg since (finalOf (feedWords (before ++ since)) s).rx
  event    : before = [] ∨ ∃ e ∈ eventsOf (feedWords (before ++ since)) s, e ≠ .none

section

variable {s : State} {l : List Byte} {b : Byte}

theorem Holds.nil (h : s.rx = canonicalHunt s.cfg) : Holds s [] [] := ⟨h, h ▸ .stray List.not_mem_nil, .inl rfl⟩

/-- The byte that ends a candidate leaves nothing held. -/
theorem Holds.of_event {e : Event} (h : (rxByte b (finalOf (feedWords l) s)).result = some ⟨.ok, e, []⟩)
    (he : e ≠ .none) : Holds s (l ++ [b]) [] := by
  have hhunt : (finalOf (feedWords (l ++ [b])) s).rx = canonicalHunt s.cfg := by
    rw [finalOf_feedWords_append_one, rxByte_rx_of_event h he, finalOf_cfg]
  refine ⟨hhunt, ?_, .inr ⟨e, ?_, he⟩⟩
  · rw [List.append_nil, hhunt]
    exact .stray List.not_mem_nil
  · rw [List.append_nil, eventsOf_feedWords_append_one h]
    simp

/-- A byte after those held is taken among them, or ends the candidate: by a `CORRUPT`, or by the delivery of the frame
whose encoding it completes. -/
theorem Holds.rxByte_cases {before since : List Byte} (h : Holds s before since) (hwf : s.cfg.wf = true) (b : Byte) :
    ((rxByte b (finalOf (feedWords (before ++ since)) s)).result = some ⟨.ok, .none, []⟩ ∧
      Holds s before (since ++ [b])) ∨
    (∃ cause, (rxByte b (finalOf (feedWords (before ++ since)) s)).result = some ⟨.ok, .corrupt cause, []⟩) ∨
    ∃ stray ctr p,
      (rxByte b (finalOf (feedWords (before ++ since)) s)).result = some ⟨.ok, .frame ctr p.length p, []⟩ ∧
      s.cfg.marker ∉ stray ∧ p.length ≤ s.cfg.maxPayload ∧ since ++ [b] = stray ++ frameBytes s.cfg p ctr := by
  obtain ⟨hhunt, hreceived, hevent⟩ := h
  have hcfg := finalOf_cfg (feedWords (before ++ since)) s
  rw [← hcfg] at hreceived hwf
  obtain ⟨rx, hb, hmore⟩ | ⟨cause, hb⟩ | ⟨stray, ctr, p, hb, hframe⟩ := hreceived.rxByte_cases hwf b
  · refine .inl ⟨by rw [hb]; rfl, hhunt, ?_, hevent.imp_right fun ⟨e, he, hne⟩ => ⟨e, ?_, hne⟩⟩
    · rw [← List.append_assoc, finalOf_feedWords_append_one, hb, ← hcfg]
      exact hmore
    · rw [← List.append_assoc, eventsOf_feedWords_append_one (e := .none) (by rw [hb]; rfl)]
      exact List.mem_append_left _ he
  · exact .inr (.inl ⟨cause, by rw [hb]; rfl⟩)
  · rw [hcfg] at hframe
    exact .inr (.inr ⟨stray, ctr, p, by rw [hb]; rfl, hframe⟩)

theorem exists_holds (hwf : s.cfg.wf = true) (hrx : s.rx = canonicalHunt s.cfg) (l : List Byte) :
    ∃ before since, l = before ++ since ∧ Holds s before since := by
  induction l using List.reverseRecOn with
  | nil => exact ⟨[], [], rfl, .nil hrx⟩
  | append_singleton l b ih =>
    obtain ⟨before, since, rfl, hholds⟩ := ih
    obtain ⟨-, hmore⟩ | ⟨cause, hb⟩ | ⟨stray, ctr, p, hb, -⟩ := hholds.rxByte_cases hwf b
    · exact ⟨before, since ++ [b], List.append_assoc .., hmore⟩
    · exact ⟨_, [], (List.append_nil _).symm, .of_event hb nofun⟩
    · exact ⟨_, [], (List.append_nil _).symm, .of_event hb nofun⟩

/-- A frame delivered on the last byte is one whose encoding, after stray bytes, was received since the half was last
canonical (R163). -/
theorem received_of_delivered {c : Byte} {n : Nat} {p : List Byte} (hwf : s.cfg.wf = true)
    (hrx : s.rx = canonicalHunt s.cfg)
    (h : (rxByte b (finalOf (feedWords l) s)).result = some ⟨.ok, .frame c n p, []⟩) :
    ∃ before stray, l ++ [b] = before ++ stray ++ frameBytes s.cfg p c ∧
      (finalOf (feedWords before) s).rx = canonicalHunt s.cfg ∧ s.cfg.marker ∉ stray ∧ n = p.length ∧
      p.length ≤ s.cfg.maxPayload ∧ (before = [] ∨ ∃ e ∈ eventsOf (feedWords l) s, e ≠ .none) := by
  obtain ⟨before, since, rfl, hholds⟩ := exists_holds hwf hrx l
  obtain ⟨hb, -⟩ | ⟨cause, hb⟩ | ⟨stray, ctr, q, hb, hstray, hfits, hbytes⟩ := hholds.rxByte_cases hwf b
  · cases hb.symm.trans h
  · cases hb.symm.trans h
  · cases hb.symm.trans h
    exact ⟨before, stray, by rw [List.append_assoc, hbytes, List.append_assoc], hholds.hunt, hstray, rfl, hfits,
      hholds.event⟩

end

/-! ### A frame after stray bytes (R161) -/

section

variable {s : State}

theorem accepts_stray {stray : List Byte} (hrx : s.rx = canonicalHunt s.cfg) (hstray : s.cfg.marker ∉ stray) :
    Accepts stray s (canonicalHunt s.cfg) := by
  induction stray generalizing s with
  | nil => exact hrx ▸ .nil s
  | cons b stray ih =>
    obtain ⟨hb, hstray⟩ := List.ne_and_not_mem_of_not_mem_cons hstray
    exact .cons (rx := s.rx) (rxByte_stray (by rw [hrx]; rfl) (Ne.symm hb)) (ih hrx hstray)

/-- Stray bytes and then a frame, fed from canonical hunt: the frame on the last byte, and no event before. -/
theorem eventsOf_stray_frameBytes {stray p : List Byte} (ctr : Byte) (hwf : s.cfg.wf = true)
    (hrx : s.rx = canonicalHunt s.cfg) (hstray : s.cfg.marker ∉ stray) (hfits : p.length ≤ s.cfg.maxPayload) :
    eventsOf (feedWords (stray ++ frameBytes s.cfg p ctr)) s =
        List.replicate (stray.length + (frameBytes s.cfg p ctr).length - 1) .none ++ [.frame ctr p.length p] ∧
      (finalOf (feedWords (stray ++ frameBytes s.cfg p ctr)) s).rx = canonicalHunt s.cfg := by
  have haccepts := accepts_stray hrx hstray
  have hcfg := finalOf_cfg (feedWords stray) s
  obtain ⟨hresults, hfinal⟩ := resultsOf_feedWords_frameBytes (s := finalOf (feedWords stray) s) (p := p) ctr
    (by rwa [hcfg]) (by rw [hcfg, haccepts.final]) (by rwa [hcfg])
  rw [hcfg] at hresults hfinal
  have hpos : 1 ≤ (frameBytes s.cfg p ctr).length := by rw [frameBytes_eq_cons]; simp
  rw [feedWords_append, eventsOf_append, finalOf_append, haccepts.events, eventsOf, hresults]
  refine ⟨?_, hfinal⟩
  rw [Nat.add_sub_assoc hpos, ← List.replicate_append_replicate]
  simp only [List.map_append, List.map_replicate, List.map_singleton, List.append_assoc]

theorem deliveriesOf_stray_frameBytes {stray p : List Byte} (ctr : Byte) (hwf : s.cfg.wf = true)
    (hrx : s.rx = canonicalHunt s.cfg) (hstray : s.cfg.marker ∉ stray) (hfits : p.length ≤ s.cfg.maxPayload) :
    deliveriesOf (feedWords (stray ++ frameBytes s.cfg p ctr)) s = [.frame ctr p.length p] := by
  have hevents := (eventsOf_stray_frameBytes ctr hwf hrx hstray hfits).1
  rw [eventsOf] at hevents
  rw [deliveriesOf, hevents]
  simp

/-- Frames fed back to back from canonical hunt are delivered one after another. -/
theorem deliveriesOf_frames {cfg : Config} (hwf : cfg.wf = true) (frames : List (Byte × List Byte)) {s : State}
    (hcfg : s.cfg = cfg) (hrx : s.rx = canonicalHunt cfg) (hfits : ∀ x ∈ frames, x.2.length ≤ cfg.maxPayload) :
    deliveriesOf (feedWords (frames.flatMap fun x => frameBytes cfg x.2 x.1)) s =
        frames.map (fun x => .frame x.1 x.2.length x.2) ∧
      (finalOf (feedWords (frames.flatMap fun x => frameBytes cfg x.2 x.1)) s).rx = canonicalHunt cfg := by
  induction frames generalizing s with
  | nil => exact ⟨rfl, hrx⟩
  | cons x frames ih =>
    subst hcfg
    obtain ⟨hx, hfits⟩ := List.forall_mem_cons.mp hfits
    have hevent := deliveriesOf_stray_frameBytes (stray := []) x.1 hwf hrx List.not_mem_nil hx
    have hhunt := (eventsOf_stray_frameBytes (stray := []) x.1 hwf hrx List.not_mem_nil hx).2
    obtain ⟨hevents, hfinal⟩ := ih (finalOf_cfg _ s) hhunt hfits
    rw [List.nil_append] at hevent hevents hfinal
    rw [List.flatMap_cons, feedWords_append, deliveriesOf_append, finalOf_append, hevent, hevents]
    exact ⟨rfl, hfinal⟩

/-- The lists whose one event is a frame on their last byte are those that `decode` accepts: stray bytes and one encoded
frame (R110, R162). -/
theorem eventsOf_eq_frame_iff {l p : List Byte} {c : Byte} (hwf : s.cfg.wf = true) (hrx : s.rx = canonicalHunt s.cfg) :
    eventsOf (feedWords l) s = List.replicate (l.length - 1) .none ++ [.frame c p.length p] ↔
      frameDecode s.cfg l = .frame c p := by
  rw [frameDecode_eq_frame_iff hwf]
  constructor
  · intro h
    obtain rfl | ⟨l, b, rfl⟩ := List.eq_nil_or_concat' l
    · simp [feedWords, eventsOf, resultsOf] at h
    obtain ⟨e, he⟩ := rxByte_result b (finalOf (feedWords l) s)
    rw [eventsOf_feedWords_append_one he] at h
    obtain ⟨hnone, rfl⟩ := List.append_singleton_inj.mp h
    obtain ⟨before, stray, hl, -, hstray, -, hfits, rfl | ⟨e, hmem, he⟩⟩ := received_of_delivered hwf hrx he
    · exact ⟨stray, _, hstray, frameEncode_eq_some_iff.mpr ⟨hfits, rfl⟩, hl⟩
    · rw [hnone] at hmem
      exact absurd (List.eq_of_mem_replicate hmem) he
  · rintro ⟨stray, f, hstray, hf, rfl⟩
    obtain ⟨hfits, rfl⟩ := frameEncode_eq_some_iff.mp hf
    rw [(eventsOf_stray_frameBytes c hwf hrx hstray hfits).1, List.length_append]

end

/-! ### A frame with one byte changed (R164) -/

/-- Covered bytes and one byte more, changed in the counter or after the length field, are covered bytes of a payload of the
same length, and one byte more. -/
theorem set_coveredBytes_append {cfg : Config} (c v k : Byte) (p : List Byte) {j : Nat} (hj : j = 0 ∨ lenWidth cfg < j) :
    ∃ c' p' k', p'.length = p.length ∧ (coveredBytes cfg c p ++ [k]).set j v = coveredBytes cfg c' p' ++ [k'] := by
  obtain rfl | hj := hj
  · exact ⟨v, p, k, rfl, rfl⟩
  · obtain ⟨m, rfl⟩ := Nat.exists_eq_add_of_lt hj
    have hhead : ([c] ++ lenbytes cfg p.length).length = lenWidth cfg + 1 := by simp [length_lenbytes]
    have hset : (coveredBytes cfg c p ++ [k]).set (lenWidth cfg + m + 1) v =
        [c] ++ lenbytes cfg p.length ++ (p ++ [k]).set m v := by
      rw [coveredBytes, List.append_assoc _ p, List.set_append_right _ _ (by omega), hhead]
      congr 2
      omega
    obtain hnil | ⟨p', k', hbody⟩ := List.eq_nil_or_concat' ((p ++ [k]).set m v)
    · simp at hnil
    · have hlen : p'.length = p.length := by simpa using (congrArg List.length hbody).symm
      exact ⟨c, p', k', hlen, by rw [hset, hbody, coveredBytes, hlen, List.append_assoc _ p']⟩

/-- With its marker and its length field kept, a changed frame is the marker, covered bytes, and another byte than their
checksum. -/
theorem set_frameBytes {cfg : Config} {p : List Byte} {c v : Byte} {i : Nat} (hck : cfg.ck.Sensitive)
    (hplace : i = 1 ∨ hdr cfg ≤ i) (hi : i < (frameBytes cfg p c).length) (hv : v ≠ (frameBytes cfg p c)[i]) :
    ∃ c' p' k, p'.length = p.length ∧ k ≠ cfg.ck.of (coveredBytes cfg c' p') ∧
      (frameBytes cfg p c).set i v = cfg.marker :: coveredBytes cfg c' p' ++ [k] := by
  unfold hdr at hplace
  obtain ⟨j, rfl⟩ : ∃ j, i = j + 1 := ⟨i - 1, by omega⟩
  obtain ⟨c', p', k, hlen, hset⟩ :=
    set_coveredBytes_append c v (cfg.ck.of (coveredBytes cfg c p)) p (j := j) (cfg := cfg) (by omega)
  refine ⟨c', p', k, hlen, ?_, by rw [frameBytes_eq_cons, List.set_cons_succ, hset]; rfl⟩
  rintro rfl
  exact hck.set_ne_append_of _ _ (Nat.lt_of_succ_lt_succ hi) hv hset

/-! ### The obligations -/

/-- Settles O48: stray bytes leave the half canonical, and a frame from there is delivered on its last byte; other words
between do not reach the receive half; frames back to back by induction over them. -/
theorem receivedFramesAreDelivered : Obligations.ReceivedFramesAreDelivered := by
  refine ⟨fun s c stray p f hwf hrx hstray hf => ?_, fun s frames hwf hrx hfits => ?_⟩
  · obtain ⟨hfits, rfl⟩ := frameEncode_eq_some_iff.mp hf
    obtain ⟨hevents, hfinal⟩ := eventsOf_stray_frameBytes c hwf hrx hstray hfits
    refine ⟨⟨_, run_eq _ s, hfinal, hevents⟩, fun ws hws => ?_⟩
    have hrun := run_eq ws s
    obtain ⟨hrx', hdeliveries⟩ := finalOf_rx_deliveriesOf ws (s := s) rfl rfl
    rw [hws] at hrx' hdeliveries
    refine ⟨_, hrun, hrx'.trans hfinal, ?_⟩
    rw [run_deliveries hrun, hdeliveries, deliveriesOf_stray_frameBytes c hwf hrx hstray hfits]
  · obtain ⟨hdeliveries, hfinal⟩ := deliveriesOf_frames hwf frames rfl hrx hfits
    have hrun := run_eq (feedWords (frames.flatMap fun x => frameBytes s.cfg x.2 x.1)) s
    exact ⟨_, hrun, hfinal, (run_deliveries hrun).trans hdeliveries⟩

/-- Settles O50: both sides say that `l` is stray bytes and one encoded frame. -/
theorem receiverAgreesWithDecode : Obligations.ReceiverAgreesWithDecode := by
  intro s l hwf hrx
  have hiff (c : Byte) (p : List Byte) := eventsOf_eq_frame_iff (l := l) (c := c) (p := p) hwf hrx
  refine ⟨_, run_eq _ s, fun c p => (hiff c p).symm, fun hnone => ?_⟩
  cases h : frameDecode s.cfg l with
  | corrupt => rfl
  | frame c p => exact absurd ⟨c, p, (hiff c p).mpr h⟩ hnone

/-- Settles O51: what a delivery says of the bytes received, and back by feeding them. -/
theorem onlyReceivedFramesAreDelivered : Obligations.OnlyReceivedFramesAreDelivered := by
  intro s l b c n p hwf hrx
  have hrun := run_eq (feedWords (l ++ [b])) s
  refine ⟨_, hrun, ?_⟩
  rw [run_events hrun]
  constructor
  · intro hlast
    obtain ⟨e, he⟩ := rxByte_result b (finalOf (feedWords l) s)
    rw [eventsOf_feedWords_append_one he, List.getLast?_concat] at hlast
    obtain rfl := Option.some.inj hlast
    obtain ⟨before, stray, hl, hbefore, hstray, hn, hfits, -⟩ := received_of_delivered hwf hrx he
    exact ⟨before, stray, _, hl, run_eq _ s, hbefore, hstray, hn, hfits⟩
  · rintro ⟨before, stray, q, hl, hq, hbefore, hstray, rfl, hfits⟩
    cases (run_eq _ s).symm.trans hq
    have hcfg := finalOf_cfg (feedWords before) s
    have hevents := (eventsOf_stray_frameBytes (s := finalOf (feedWords before) s) (p := p) c (by rwa [hcfg])
      (hbefore.trans (by rw [hcfg])) (by rwa [hcfg]) (by rwa [hcfg])).1
    rw [hcfg] at hevents
    rw [hl, List.append_assoc, feedWords_append, eventsOf_append, hevents, ← List.append_assoc, List.getLast?_concat]

/-- Settles O18: on the lines `DATA` and `CSUM` of R37's table `RX_PAY` is the payload taken, and a byte in `DATA` makes it
one longer. -/
theorem payloadAccumulatesAndIsDelivered : Obligations.PayloadAccumulatesAndIsDelivered := by
  intro s b hinv
  have hwf := hinv.fits
  refine ⟨fun hdata => ?_, fun hcsum hb => ?_⟩
  · obtain ⟨ctr, n, p, hfits, hp, hrx⟩ := hinv.rx.of_data_payloadLine hdata
    have hp' : (p ++ [b]).length ≤ n := by simpa using hp
    have hidx : s.rx.idx.toNat = p.length := by
      rw [hrx]; exact toNat_lenReg_of_le_maxPayload hwf (hp.le.trans hfits)
    have hidx' : (payloadLine s.cfg ctr n (p ++ [b])).idx.toNat = (p ++ [b]).length :=
      toNat_lenReg_of_le_maxPayload hwf (hp'.trans hfits)
    have hlen : (payloadLine s.cfg ctr n (p ++ [b])).len.toNat = n := toNat_lenReg_of_le_maxPayload hwf hfits
    have hpay' : rxPay s.cfg (payloadLine s.cfg ctr n (p ++ [b])) = p ++ [b] :=
      rxPay_payloadLine hwf (hp'.trans hfits)
    refine ⟨_, exec_rxb (rxByte_payload hwf hfits hrx hp), ?_⟩
    simp only [State.answerOk_cfg, State.answerOk_rx, State.setRx_cfg, State.setRx_rx]
    rw [hpay', hidx, hidx', hlen, hrx, rxPay_payloadLine hwf (hp.le.trans hfits)]
    exact ⟨rfl, rfl, by simp, hp', payloadLine_phase_eq_csum_iff hwf hfits hp'⟩
  · obtain ⟨ctr, p, hfits, hrx⟩ := hinv.rx.of_csum_payloadLine hcsum
    have hlen : s.rx.len.toNat = p.length := by rw [hrx]; exact toNat_lenReg_of_le_maxPayload hwf hfits
    have hpay : rxPay s.cfg s.rx = p := by rw [hrx, rxPay_payloadLine hwf hfits]
    refine ⟨_, exec_rxb (rxByte_frame hcsum hb), ?_⟩
    have hread : memReadUpTo s.cfg s.rx.buf p.length = p := by rw [hrx]; exact memReadUpTo_ofBytes s.cfg p hfits
    rw [hpay, hlen, hread]
    exact ⟨rfl, rfl, hfits⟩

/-- Settles O20: accepting a byte gives no event, and the other two outcomes of `RXB` come from their phases only. -/
theorem eventsComeOnlyAtTheirPhase : Obligations.EventsComeOnlyAtTheirPhase := by
  intro s t b h
  cases h
  obtain ⟨rx, hb⟩ | ⟨cause, hb, hcause⟩ | ⟨hb, hcsum, -⟩ := rxByte_cases b s
  · exact ⟨.none, by rw [hb]; rfl, nofun, nofun, fun _ => rfl⟩
  · refine ⟨.corrupt cause, by rw [hb]; rfl, nofun, fun _ _ => ?_, fun hphase => ?_⟩
    · exact hcause.imp (fun ⟨_, hlen, hlast, _⟩ => ⟨hlen, hlast⟩) fun ⟨_, hcsum, _⟩ => hcsum
    · obtain ⟨-, hlen, -⟩ | ⟨-, hcsum, -⟩ := hcause
      · simp [hlen] at hphase
      · simp [hcsum] at hphase
  · exact ⟨.frame _ _ _, by rw [hb]; rfl, fun _ _ _ _ => hcsum, nofun, fun hphase => by simp [hcsum] at hphase⟩

/-- Settles O52: the last byte's event makes the receive half canonical, and received bytes do not reach the transmit
half. -/
theorem endedCandidatesLeaveNoTrace : Obligations.EndedCandidatesLeaveNoTrace := by
  intro s ws b hrx _
  have hrun := run_eq (ws ++ [encode (.rxb b)]) s
  have hsent : transmitWords (ws ++ [encode (.rxb b)]) = transmitWords ws := by
    rw [transmitWords_append, show [encode (.rxb b)] = feedWords [b] from rfl, transmitWords_feedWords, List.append_nil]
  obtain ⟨htx, -⟩ := finalOf_tx_streamOf (ws ++ [encode (.rxb b)]) (s := s) rfl rfl
  rw [hsent] at htx
  refine ⟨_, _, hrun, run_eq _ s, htx, finalOf_cfg _ s, fun e hlast hne => ?_⟩
  obtain ⟨r, hr⟩ := afterWord_result (encode (.rxb b)) (finalOf ws s)
  rw [run_events hrun, eventsOf_append_one hr, List.getLast?_concat] at hlast
  obtain rfl := Option.some.inj hlast
  rw [afterWord_rxb] at hr
  have hhunt : (finalOf (ws ++ [encode (.rxb b)]) s).rx = canonicalHunt s.cfg := by
    rw [finalOf_append, finalOf, finalOf, afterWord_rxb, rxByte_rx_of_event hr hne, finalOf_cfg]
  exact hhunt.trans hrx.symm

/-- Settles O53: up to the last byte the changed list is a candidate as good as any, and there the checksum is wrong. -/
theorem changedByteIsRejectedByTheReceiver : Obligations.ChangedByteIsRejectedByTheReceiver := by
  intro s c v p f i hlegal hrx hf hplace hi hv
  obtain ⟨hfits, rfl⟩ := frameEncode_eq_some_iff.mp hf
  obtain ⟨c', p', k, hlen, hk, hset⟩ := set_frameBytes hlegal.sensitive hplace hi hv
  have htaken := accepts_marker_coveredBytes c' hlegal.fits hrx (hlen.trans_le hfits)
  have hcfg := finalOf_cfg (feedWords (s.cfg.marker :: coveredBytes s.cfg c' p')) s
  have hlast := rxByte_wrongChecksum (b := k) (htaken.final.trans (by rw [hcfg])) (by rwa [hcfg])
  have hlength : (frameBytes s.cfg p c).length - 1 = (s.cfg.marker :: coveredBytes s.cfg c' p').length := by
    rw [← List.length_set (i := i) (a := v), hset]
    simp
  have hrun := run_eq (feedWords ((frameBytes s.cfg p c).set i v)) s
  refine ⟨_, hrun, ?_, ?_⟩
  · show (finalOf (feedWords ((frameBytes s.cfg p c).set i v)) s).rx = _
    rw [hset, finalOf_feedWords_append_one, hlast, State.raiseCorrupt_rx, hcfg]
  · rw [run_events hrun, hset, eventsOf_feedWords_append_one (by rw [hlast]; rfl), htaken.events, hlength]

/-- Settles O17: the ten cases of `RXB`. -/
theorem rxbFollowsItsRule : Obligations.RxbFollowsItsRule := by
  refine ⟨fun b => (asmRxb_toNat b).symm, fun s b => ⟨fun hhunt hb => exec_rxb (rxByte_stray hhunt hb),
    fun hhunt hb => exec_rxb (rxByte_opens hhunt hb), fun hctr => exec_rxb (rxByte_ctr hctr),
    fun n hlittle hbig hlen => ?_, fun hdata => exec_rxb (rxByte_data hdata),
    fun hcsum hb => exec_rxb (rxByte_frame hcsum hb), fun hcsum hb => exec_rxb (rxByte_badChecksum hcsum hb)⟩⟩
  have hn := eq_mergeLen hlittle hbig
  exact ⟨fun hmore => exec_rxb (rxByte_lenMore hlen hn hmore),
    fun hlast hlong => exec_rxb (rxByte_lenLong hlen hn hlast hlong),
    fun hlast _ hzero => exec_rxb (rxByte_lenZero hlen hn hlast hzero),
    fun hlast hfits hpos => exec_rxb (rxByte_lenPos hlen hn hlast hfits hpos)⟩

/-- Settles O19: on the `HUNT` line of R37's table the receive half is canonical already. -/
theorem rxaGivesCanonicalHunt : Obligations.RxaGivesCanonicalHunt := by
  refine ⟨by decide, fun s => ⟨rfl, fun hinv hhunt => ⟨_, rfl, ?_⟩⟩⟩
  have hrx := hinv.rx
  simp only [RxHalf.Inv, hhunt] at hrx
  exact hrx.symm

end Sys2Proof.Machine
end

section
/-! PROOFS. Family 43_system_ops.md: illegal words (O4), `RST` (O2) and `NOP` (O3). A word is illegal when it is no
instruction's word; and since no word looks at the last result, a `NOP` before it is not seen. -/

namespace Sys2Proof.Machine

/-! ### Words that are no instruction's -/

/-- The decoder rejects what the encoder never gives. -/
theorem exists_illegal_of_ne_encode {w : Word} (h : ∀ i, encode i ≠ w) : ∃ e, decode w = .illegal e := by
  cases hw : decode w with
  | illegal e => exact ⟨e, rfl⟩
  | instr i => exact absurd (encode_of_decode hw) (h i)

/-- A word whose operation code is reserved, or that has a reserved bit of its format set (R84, R85). -/
def HasReserved (w : Word) : Prop :=
  7 ≤ w.toNat / 2 ^ 28 ∨
  (w.toNat / 2 ^ 28 ∈ [0, 2, 5, 6] ∧ w.toNat % 2 ^ 28 ≠ 0) ∨
  (w.toNat / 2 ^ 28 ∈ [1, 4] ∧ w.toNat / 256 % 2 ^ 20 ≠ 0) ∨
  (w.toNat / 2 ^ 28 = 3 ∧ w.toNat / 2 ^ 24 % 16 ≠ 0)

/-- The encoder uses operation codes 0 to 6 and writes 0 in every reserved bit. -/
theorem not_hasReserved_encode (i : Instr) : ¬ HasReserved (encode i) := by
  simp only [HasReserved, encode_toNat, List.mem_cons, List.not_mem_nil, or_false]
  cases i with
  | nop => decide
  | rxb b => have hb : b.toNat < 2 ^ 8 := b.isLt; dsimp only; omega
  | rxa => decide
  | txs ctr len =>
    have hctr : ctr.toNat < 2 ^ 8 := ctr.isLt
    have hlen : len.toNat < 2 ^ 16 := len.isLt
    dsimp only
    omega
  | txd b => have hb : b.toNat < 2 ^ 8 := b.isLt; dsimp only; omega
  | txa => decide
  | rst => decide

theorem exists_illegal_of_hasReserved {w : Word} (h : HasReserved w) : ∃ e, decode w = .illegal e :=
  exists_illegal_of_ne_encode fun i hi => not_hasReserved_encode i (hi ▸ h)

/-! ### A word after `NOP` -/

theorem afterWord_input (w : Word) (s : State) : (afterWord w s).input = s.input := by
  obtain ⟨t, -, hrun, -, -, hinput⟩ := runWord_next w s
  cases (runWord_eq w s).symm.trans hrun
  exact hinput

/-- No word looks at the last result. -/
theorem afterWord_setResult (w : Word) (s : State) (r : Option Result) : afterWord w (s.setResult r) = afterWord w s := by
  have henv : runWord w (s.setResult r) = .next ((afterWord w s).setInput s.input) :=
    runWord_withEnv (runWord_eq w s) s.input r
  rw [runWord_eq, ← afterWord_input w s] at henv
  exact Host.Outcome.next.inj henv

theorem afterWord_nop (s : State) : afterWord (encode .nop) s = s.answerOk [] :=
  afterWord_of_exec (decode_encode .nop) rfl

/-! ### The obligations -/

/-- Settles O4: a word with a reserved code or bit is no instruction's word, and an illegal word answers the same in every
state, presented or run. -/
theorem illegalWordsAnswerErrIllegal : Obligations.IllegalWordsAnswerErrIllegal := by
  intro w hreserved
  obtain ⟨e, he⟩ := exists_illegal_of_hasReserved hreserved
  have hrun := runWord_of_illegal he
  exact ⟨⟨e, he⟩, fun s => ⟨hrun s, (step_present s w).trans (hrun s)⟩⟩

/-- Settles O2: `RST` writes the canonical halves, which are those of reset and those that `RXA` and `TXA` write. -/
theorem rstMakesBothHalvesCanonical : Obligations.RstMakesBothHalvesCanonical := by
  refine ⟨by decide, fun s => ⟨rfl, ⟨s.huntAgain.idleAgain.answerOk [], rfl, ?_⟩, s.huntAgain.answerOk [], rfl, rfl⟩⟩
  exact ⟨rfl, rfl, rfl⟩

/-- Settles O3: before a word, `NOP` leaves a last result that the word does not look at; after it, `NOP` writes no more
than a result. -/
theorem nopWritesNothingAndCommutes : Obligations.NopWritesNothingAndCommutes := by
  refine ⟨by decide, fun s => rfl, fun s w => ?_⟩
  obtain ⟨a, ha⟩ := afterWord_result w s
  have hafter : afterWord w (s.answerOk []) = afterWord w s := afterWord_setResult w s _
  refine ⟨_, _, a, run_eq _ _, run_eq _ _, ?_, ?_, ?_⟩
  · simp [resultsOf, afterWord_nop, hafter, ha]
  · simp [resultsOf, afterWord_nop, ha]
  · simp [finalOf, afterWord_nop, hafter]

end Sys2Proof.Machine
end

section
/-! PROOFS. Family 60_exceptions.md: `CORRUPT` (O21), the response codes (O26), refusals (O25) and the event port (O28).
The response of a word is read off a table of its decoding and the transmit phase (`respOf`, R192), the event port off the
three kinds of event. -/

namespace Sys2Proof.Machine

/-! ### `CORRUPT` and its causes (R195, R196) -/

section

variable {s : State} {b : Byte} {cause : Cause}

/-- The condition of each cause (R195). -/
def CorruptBy (s : State) (b : Byte) (cause : Cause) : Prop :=
  (s.rx.phase = .len ∧ lenWidth s.cfg ≤ s.rx.idx.toNat + 1 ∧ cause = .lenRange ∧
    s.cfg.maxPayload < mergeLen s.cfg s.rx.len.toNat s.rx.idx.toNat b) ∨
  (s.rx.phase = .csum ∧ s.cfg.ck.fin s.rx.sum ≠ b ∧ cause = .checksum)

theorem CorruptBy.rxByte_eq (h : CorruptBy s b cause) : rxByte b s = s.raiseCorrupt cause := by
  obtain ⟨hlen, hlast, rfl, hlong⟩ | ⟨hcsum, hb, rfl⟩ := h
  · exact rxByte_lenLong hlen rfl hlast hlong
  · exact rxByte_badChecksum hcsum hb

/-- Of the three outcomes of `RXB`, only raising Corrupt has this result. -/
theorem corruptBy_of_rxByte_result (h : (rxByte b s).result = some ⟨.ok, .corrupt cause, []⟩) : CorruptBy s b cause := by
  obtain ⟨rx, hb⟩ | ⟨cause', hb, hcause⟩ | ⟨hb, -⟩ := rxByte_cases b s
  · simp [hb] at h
  · obtain rfl : cause' = cause := by simpa [hb] using h
    exact hcause.imp (fun ⟨hrange, hlen, hlast, hlong⟩ => ⟨hlen, hlast, hrange, hlong⟩)
      fun ⟨hsum, hcsum, hwrong⟩ => ⟨hcsum, hwrong, hsum⟩
  · simp [hb] at h

theorem rxByte_result_eq_corrupt_iff :
    (rxByte b s).result = some ⟨.ok, .corrupt cause, []⟩ ↔ CorruptBy s b cause :=
  ⟨corruptBy_of_rxByte_result, fun h => by rw [h.rxByte_eq, State.raiseCorrupt_result]⟩

end

/-! ### The response of a word (R192) -/

/-- The response to a decoded word, by the transmit phase and the length (R192, R198). -/
def respOf (s : State) : Decoded → Resp
  | .illegal _ => .errIllegal
  | .instr (.txs _ len) =>
    match s.tx.phase with
    | .data => .errBusy
    | .idle => if s.cfg.maxPayload < len.toNat then .errLen else .ok
  | .instr (.txd _) =>
    match s.tx.phase with
    | .data => .ok
    | .idle => .errIdle
  | .instr _ => .ok

/-- An instruction answers as the table says. -/
theorem exec_resp {i : Instr} {s t : State} (h : exec i s = .next t) :
    ∃ r, t.result = some r ∧ r.resp = respOf s (.instr i) := by
  cases i with
  | nop => cases h; exact ⟨_, rfl, rfl⟩
  | rxb b =>
    cases h
    obtain ⟨e, hresult⟩ := rxByte_result b s
    exact ⟨_, hresult, rfl⟩
  | rxa => cases h; exact ⟨_, rfl, rfl⟩
  | txs ctr len =>
    obtain ⟨hrun, hdata⟩ | ⟨hrun, hidle, hlong⟩ | ⟨hrun, hidle, hfits, tx, bytes, hstart⟩ := execTxs_cases ctr len s
    · cases hrun.symm.trans h; exact ⟨_, rfl, by simp [respOf, hdata]⟩
    · cases hrun.symm.trans h; exact ⟨_, rfl, by simp [respOf, hidle, hlong]⟩
    · cases hrun.symm.trans h
      exact ⟨_, by rw [hstart]; rfl, by simp [respOf, hidle, hfits]⟩
  | txd b =>
    obtain ⟨hrun, hidle⟩ | ⟨hrun, hdata, tx, bytes, hbyte⟩ := execTxd_cases b s
    · cases hrun.symm.trans h; exact ⟨_, rfl, by simp [respOf, hidle]⟩
    · cases hrun.symm.trans h
      exact ⟨_, by rw [hbyte]; rfl, by simp [respOf, hdata]⟩
  | txa => cases h; exact ⟨_, rfl, rfl⟩
  | rst => cases h; exact ⟨_, rfl, rfl⟩

theorem afterWord_resp (w : Word) (s : State) : ∃ r, (afterWord w s).result = some r ∧ r.resp = respOf s (decode w) := by
  cases hw : decode w with
  | instr i => exact exec_resp (exec_of_decode hw s)
  | illegal e => rw [afterWord_of_illegal hw]; exact ⟨_, rfl, rfl⟩

/-- Each refusal stands in the table under its condition only. -/
theorem respOf_conditions (s : State) (d : Decoded) :
    (respOf s d = .errIllegal ↔ ∃ e, d = .illegal e) ∧
    (respOf s d = .errBusy ↔ ∃ ctr len, d = .instr (.txs ctr len) ∧ s.tx.phase = .data) ∧
    (respOf s d = .errIdle ↔ ∃ b, d = .instr (.txd b) ∧ s.tx.phase = .idle) ∧
    (respOf s d = .errLen ↔
      ∃ ctr len, d = .instr (.txs ctr len) ∧ s.tx.phase = .idle ∧ s.cfg.maxPayload < len.toNat) := by
  cases d with
  | illegal e => simp [respOf]
  | instr i =>
    cases i with
    | txs ctr len =>
      cases hphase : s.tx.phase with
      | data => simp [respOf, hphase]
      | idle => by_cases hlong : s.cfg.maxPayload < len.toNat <;> simp [respOf, hphase, hlong]
    | txd b => cases hphase : s.tx.phase <;> simp [respOf, hphase]
    | _ => simp [respOf]

/-- A refused or illegal word leaves the state but for the result, which has no event and no bytes (R193). -/
theorem afterWord_of_resp_ne_ok {w : Word} {s : State} {r : Result} (hr : (afterWord w s).result = some r)
    (hresp : r.resp ≠ .ok) : r.evt = .none ∧ r.tx = [] ∧ afterWord w s = s.setResult (some r) := by
  obtain ⟨e, hw⟩ := eq_refuse_of_resp_ne_ok hr hresp
  rw [hw] at hr ⊢
  cases hr
  exact ⟨rfl, rfl, rfl⟩

/-! ### The event port by kind of event (R194) -/

section

variable (cfg : Config) {r : Result}

theorem eventPort_of_none (h : r.evt = .none) : eventPort cfg r = ⟨respCode r.resp, 0, 0, 0, lenReg cfg 0, []⟩ := by
  simp [eventPort, h]

theorem eventPort_of_frame {ctr : Byte} {n : Nat} {p : List Byte} (h : r.evt = .frame ctr n p) :
    eventPort cfg r = ⟨respCode r.resp, 1, 0, ctr, lenReg cfg n, p⟩ := by
  simp [eventPort, h]

theorem eventPort_of_corrupt {cause : Cause} (h : r.evt = .corrupt cause) :
    eventPort cfg r = ⟨respCode r.resp, 2, causeCode cause, 0, lenReg cfg 0, []⟩ := by
  simp [eventPort, h]

/-- The response and the register `evt_len` stands in, whatever the event. -/
theorem eventPort_resp_evtLen (r : Result) :
    (eventPort cfg r).resp = respCode r.resp ∧ ∃ n, (eventPort cfg r).evtLen = lenReg cfg n := by
  cases h : r.evt with
  | none => rw [eventPort_of_none cfg h]; exact ⟨rfl, _, rfl⟩
  | frame ctr n p => rw [eventPort_of_frame cfg h]; exact ⟨rfl, _, rfl⟩
  | corrupt cause => rw [eventPort_of_corrupt cfg h]; exact ⟨rfl, _, rfl⟩

end

/-! ### The obligations -/

/-- Settles O21: the result is a `CORRUPT` under the condition of its cause only, and then `RXB` has raised it. -/
theorem corruptLeavesOnlyTheEvent : Obligations.CorruptLeavesOnlyTheEvent := by
  intro s t b cause h
  cases h
  exact ⟨rxByte_result_eq_corrupt_iff, fun hresult => (rxByte_result_eq_corrupt_iff.mp hresult).rxByte_eq⟩

/-- Settles O25: a refusal writes the result only, and no word looks at that. -/
theorem refusalsWriteNothing : Obligations.RefusalsWriteNothing := by
  intro s t w r h hr hresp
  cases (runWord_eq w s).symm.trans h
  obtain ⟨hevt, hbytes, hsame⟩ := afterWord_of_resp_ne_ok hr hresp
  refine ⟨hevt, hbytes, hsame, fun w' => ?_⟩
  rw [hsame, runWord_eq, runWord_eq, afterWord_setResult]

/-- Settles O26: the response is the table's, whose five cases exclude each other. -/
theorem responsesComeFromTheirConditions : Obligations.ResponsesComeFromTheirConditions := by
  refine ⟨rfl, rfl, rfl, rfl, rfl, fun s w => ?_⟩
  obtain ⟨r, hr, hresp⟩ := afterWord_resp w s
  obtain ⟨hillegal, hbusy, hidle, hlen⟩ := respOf_conditions s (decode w)
  rw [← hresp] at hillegal hbusy hidle hlen
  refine ⟨_, r, runWord_eq w s, hr, hillegal, hbusy, hidle, hlen, fun hrefused => ?_, ?_⟩
  · obtain ⟨-, -, hsame⟩ := afterWord_of_resp_ne_ok hr hrefused
    exact hsame
  · cases r.resp <;> decide

/-- Settles O28: the port's fields for each kind of event; the absent kinds leave theirs at 0. -/
theorem eventPortFieldsFollowTheTable : Obligations.EventPortFieldsFollowTheTable := by
  intro cfg r
  obtain ⟨hresp, n, hlen⟩ := eventPort_resp_evtLen cfg r
  refine ⟨?_, fun h => ?_, fun c n p h => ?_, fun h => ?_, fun h => ?_, fun h => ?_, fun h => ?_, ?_⟩
  · rw [hresp]; cases r.resp <;> rfl
  · rw [eventPort_of_none cfg h]
  · rw [eventPort_of_frame cfg h]; exact ⟨rfl, rfl, rfl, rfl⟩
  · rw [eventPort_of_corrupt cfg h]; exact ⟨rfl, rfl⟩
  · rw [eventPort_of_corrupt cfg h]; exact ⟨rfl, rfl⟩
  · cases hevt : r.evt with
    | none => rw [eventPort_of_none cfg hevt]
    | frame c n p => rw [eventPort_of_frame cfg hevt]
    | corrupt cause => exact absurd hevt (h cause)
  · cases hevt : r.evt with
    | none => rw [eventPort_of_none cfg hevt]; exact ⟨rfl, rfl, rfl⟩
    | frame c n p => exact absurd hevt (h c n p)
    | corrupt cause => rw [eventPort_of_corrupt cfg hevt]; exact ⟨rfl, rfl, rfl⟩
  · rw [hlen, width_lenReg]

end Sys2Proof.Machine
end

section
/-! PROOFS. Family 70_reset_and_hazards.md: how long a candidate holds the receiver (O54), and the spec's examples (O55). A
candidate that has just declared its length stands on the payload line of R37's table with no payload byte yet; the bytes it
declared complete that line, and there every byte ends it. -/

namespace Sys2Proof.Machine

section

variable {s : State}

/-! ### A candidate that has just declared its length (R225) -/

/-- The length has just been declared: no payload byte has come, and with no payload the checksum is due at once. -/
def LengthDeclared (rx : RxHalf) : Prop :=
  (rx.phase = .data ∧ rx.idx.toNat = 0) ∨ (rx.phase = .csum ∧ rx.len.toNat = 0)

theorem LengthDeclared.eq_payloadLine {cfg : Config} {rx : RxHalf} (h : LengthDeclared rx) (hwf : cfg.wf = true)
    (hinv : rx.Inv cfg) : rx.len.toNat ≤ cfg.maxPayload ∧ ∃ ctr, rx = payloadLine cfg ctr rx.len.toNat [] := by
  obtain ⟨hdata, hidx⟩ | ⟨hcsum, hlen⟩ := h
  · obtain ⟨ctr, n, p, hfits, hp, rfl⟩ := hinv.of_data_payloadLine hdata
    have hlen : (payloadLine cfg ctr n p).len.toNat = n := toNat_lenReg_of_le_maxPayload hwf hfits
    have hcount : (payloadLine cfg ctr n p).idx.toNat = p.length :=
      toNat_lenReg_of_le_maxPayload hwf (hp.le.trans hfits)
    obtain rfl : p = [] := List.eq_nil_of_length_eq_zero (hcount.symm.trans hidx)
    exact ⟨hlen.trans_le hfits, ctr, by rw [hlen]⟩
  · obtain ⟨ctr, p, hfits, rfl⟩ := hinv.of_csum_payloadLine hcsum
    have hcount : (payloadLine cfg ctr p.length p).len.toNat = p.length := toNat_lenReg_of_le_maxPayload hwf hfits
    obtain rfl : p = [] := List.eq_nil_of_length_eq_zero (hcount.symm.trans hlen)
    exact ⟨hlen.trans_le (Nat.zero_le _), ctr, by rw [hlen]; rfl⟩

/-- In `CSUM` every byte gives an event (R157). -/
theorem rxByte_event_of_csum (h : s.rx.phase = .csum) (b : Byte) :
    ∃ e, e ≠ .none ∧ (rxByte b s).result = some ⟨.ok, e, []⟩ := by
  by_cases hb : s.cfg.ck.fin s.rx.sum = b
  · exact ⟨.frame _ _ _, nofun, by rw [rxByte_frame h hb, State.deliver_result]⟩
  · exact ⟨.corrupt .checksum, nofun, by rw [rxByte_badChecksum h hb, State.raiseCorrupt_result]⟩

/-- The bytes declared and one more: the event is on the last of them. -/
theorem eventsOf_payload_append_one {q : List Byte} {ctr : Byte} (hwf : s.cfg.wf = true)
    (hfits : q.length ≤ s.cfg.maxPayload) (h : s.rx = payloadLine s.cfg ctr q.length []) (b : Byte) :
    ∃ e, e ≠ .none ∧ eventsOf (feedWords (q ++ [b])) s = List.replicate q.length .none ++ [e] ∧
      (finalOf (feedWords (q ++ [b])) s).rx = canonicalHunt s.cfg := by
  have htaken := accepts_payload rfl hwf hfits h (Nat.zero_add _)
  have hcsum : (finalOf (feedWords q) s).rx.phase = .csum := by
    rw [htaken.final, payloadLine, List.nil_append, if_pos rfl]
  obtain ⟨e, hevent, hresult⟩ := rxByte_event_of_csum hcsum b
  refine ⟨e, hevent, by rw [eventsOf_feedWords_append_one hresult, htaken.events], ?_⟩
  rw [finalOf_feedWords_append_one, rxByte_rx_of_event hresult hevent, finalOf_cfg]

/-! ### A candidate with a wrong checksum (R157, R224) -/

theorem eventsOf_wrongChecksum {p : List Byte} {b : Byte} (ctr : Byte) (hwf : s.cfg.wf = true)
    (hrx : s.rx = canonicalHunt s.cfg) (hfits : p.length ≤ s.cfg.maxPayload)
    (hb : b ≠ s.cfg.ck.of (coveredBytes s.cfg ctr p)) :
    eventsOf (feedWords (s.cfg.marker :: coveredBytes s.cfg ctr p ++ [b])) s =
        List.replicate (s.cfg.marker :: coveredBytes s.cfg ctr p).length .none ++ [.corrupt .checksum] ∧
      (finalOf (feedWords (s.cfg.marker :: coveredBytes s.cfg ctr p ++ [b])) s).rx = canonicalHunt s.cfg := by
  have htaken := accepts_marker_coveredBytes ctr hwf hrx hfits
  have hcfg := finalOf_cfg (feedWords (s.cfg.marker :: coveredBytes s.cfg ctr p)) s
  have hlast := rxByte_wrongChecksum (b := b) (htaken.final.trans (by rw [hcfg])) (by rwa [hcfg])
  constructor
  · rw [eventsOf_feedWords_append_one (by rw [hlast, State.raiseCorrupt_result]), htaken.events]
  · rw [finalOf_feedWords_append_one, hlast, State.raiseCorrupt_rx, hcfg]

end

/-! ### The obligations -/

/-- Settles O54: from the payload line with no payload byte, the last of `L + 1` bytes is the first taken in `CSUM`. -/
theorem candidateEndsAfterItsDeclaredLength : Obligations.CandidateEndsAfterItsDeclaredLength := by
  intro s l hinv hdeclared hl
  obtain ⟨hfits, ctr, hrx⟩ := LengthDeclared.eq_payloadLine hdeclared hinv.fits hinv.rx
  obtain rfl | ⟨q, b, rfl⟩ := List.eq_nil_or_concat' l
  · simp at hl
  have hq : q.length = s.rx.len.toNat := by simpa using hl
  rw [← hq] at hfits hrx ⊢
  obtain ⟨e, hevent, hevents, hhunt⟩ := eventsOf_payload_append_one hinv.fits hfits hrx b
  have hrun := run_eq (feedWords (q ++ [b])) s
  exact ⟨_, e, hrun, hhunt, hevent, (run_events hrun).trans hevents⟩

/-- Settles O55: the first stream is a false candidate with counter 0x5A, payload `02 11 22` and a wrong checksum, and then
a frame; the second is the frame of the payload `01`, and then stray bytes. -/
theorem hazardExamplesHappen : Obligations.HazardExamplesHappen := by
  have hwf : Config.cfg0.wf = true := Config.cfg0_legal.fits
  constructor
  · obtain ⟨hfalse, hhunt⟩ := eventsOf_wrongChecksum (s := State.resetOf Config.cfg0) (p := [0x02, 0x11, 0x22]) (b := 0xC8)
      0x5A hwf rfl (by decide) (by decide)
    have hframe := (eventsOf_stray_frameBytes (stray := []) (p := [0x11, 0x22]) 0x03 (by rwa [finalOf_cfg])
      (hhunt.trans (by rw [finalOf_cfg])) List.not_mem_nil (by rw [finalOf_cfg]; decide)).1
    rw [finalOf_cfg] at hframe
    have hrun := run_eq (feedWords ([0x5A, 0x5A, 0x03, 0x02, 0x11, 0x22, 0xC8] ++ [0x5A, 0x03, 0x02, 0x11, 0x22, 0xC8]))
      (State.resetOf Config.cfg0)
    refine ⟨_, hrun, ?_⟩
    rw [run_events hrun, feedWords_append, eventsOf_append, List.append_assoc]
    exact congrArg₂ (· ++ ·) hfalse hframe
  · obtain ⟨hframe, hhunt⟩ := eventsOf_stray_frameBytes (s := State.resetOf Config.cfg0) (stray := []) (p := [0x01]) 0x00
      hwf rfl List.not_mem_nil (by decide)
    have hstray := accepts_stray (stray := [0x09, 0xF5]) (hhunt.trans (by rw [finalOf_cfg]))
      (by rw [finalOf_cfg]; decide)
    have hrun := run_eq (feedWords ([0x5A, 0x00, 0x01, 0x01, 0xFE] ++ [0x09, 0xF5])) (State.resetOf Config.cfg0)
    refine ⟨_, hrun, ?_, ?_⟩
    · rw [run_events hrun, feedWords_append, eventsOf_append]
      exact congrArg₂ (· ++ ·) hframe hstray.events
    · show (finalOf _ _).rx = _
      rw [feedWords_append, finalOf_append]
      exact hstray.final.trans (by rw [finalOf_cfg]; rfl)

end Sys2Proof.Machine
end
